-- ==== Sys2Proof/Word.lean ====
section
/-! DEFINITION. The widths of the block's values (R6, R7, R50). Every value is unsigned (R7). -/

namespace Sys2Proof

/-- A 32-bit command word, write data or read data (R6 `BUS_WIDTH`, `CMD_WIDTH`). -/
abbrev Word := BitVec 32

/-- A value of the CRC register and of a table entry (R6 `CRC_WIDTH`, `TABLE_ENTRY_WIDTH`). -/
abbrev Crc := BitVec 16

/-- A data byte or an ASCII character code (R6 `CHAR_WIDTH`). -/
abbrev Byte := BitVec 8

/-- A hex digit's value (R9 Nibble). -/
abbrev Nibble := BitVec 4

/-- An offset of the register window (R50: 12 bits). -/
abbrev Offset := BitVec 12

end Sys2Proof
end

