-- ==== Sys2Proof/Config.lean ====
section
/-! DEFINITION. What is fixed for the block: the constants of R6 and the platform's open parameter `BASE`. -/

namespace Sys2Proof

/-- `CRC16_POLY` (R2, R6), in the reversed convention. -/
def Config.crc16Poly : Crc := 0x8408#16

/-- `CRC16_INIT_VALUE` (R2, R6). -/
def Config.crc16InitValue : Crc := 0xFFFF#16

/-- `PARAM = {CRC16_INIT_VALUE, CRC16_POLY}` (R28): a constant register. -/
def Config.param : Word := Config.crc16InitValue ++ Config.crc16Poly

/-- `WINDOW_SIZE` (R6), in bytes. -/
def Config.windowSize : Nat := 4096

/-- The 4096-byte page the platform puts the window at: R6 leaves it open, so it is a constant without
a body (assumption log 6). -/
opaque Config.basePage : Nat

/-- `BASE` (R6): the bus address of offset 0x000, 4096-byte aligned. -/
def Config.base : Nat := Config.basePage * Config.windowSize

end Sys2Proof
end

