-- ==== Sys2Proof/Syntax.lean ====
section
/-! DEFINITION. The commands: one constructor per row of spec/opcode_table.json (R85), operands at the widths of R82. -/

namespace Sys2Proof

/-- The ten commands (R85). The operand types are the widths of R82, so an operand outside its range
cannot be written here; the assembler's check of a written operand is in WellFormed.lean
(assumption log 7). -/
inductive Instr where
  /-- R140 -/
  | nop
  /-- R141, `v16` the initial value -/
  | init (v16 : BitVec 16)
  /-- R121, `b8` the data byte -/
  | bytet (b8 : BitVec 8)
  /-- R132, `b8` the data byte -/
  | byteb (b8 : BitVec 8)
  /-- R130, `d1` the data bit -/
  | bitb (d1 : BitVec 1)
  /-- R103, `c8` the character -/
  | hext (c8 : BitVec 8)
  /-- R104, `c8` the character -/
  | hexb (c8 : BitVec 8)
  /-- R105, `c8` the character -/
  | hexn (c8 : BitVec 8)
  /-- R106 -/
  | flush
  /-- R142, `v16` the checksum field -/
  | check (v16 : BitVec 16)
  deriving DecidableEq, Repr

/-- The mnemonic of each command, as R85 writes it. -/
def Instr.mnemonic : Instr → String
  | .nop => "NOP"
  | .init _ => "INIT"
  | .bytet _ => "BYTET"
  | .byteb _ => "BYTEB"
  | .bitb _ => "BITB"
  | .hext _ => "HEXT"
  | .hexb _ => "HEXB"
  | .hexn _ => "HEXN"
  | .flush => "FLUSH"
  | .check _ => "CHECK"

end Sys2Proof
end

