-- ==== Sys2Proof/WellFormed.lean ====
section
/-! DEFINITION. When a command as written (R90) is well formed: "An operand outside its range is refused by the assembler". -/

namespace Sys2Proof

/-- A command line of R90: a mnemonic and its operand as the number written. -/
inductive SourceCommand where
  | nop
  | init (v16 : Nat)
  | bytet (b8 : Nat)
  | byteb (b8 : Nat)
  | bitb (d1 : Nat)
  | hext (c8 : Nat)
  | hexb (c8 : Nat)
  | hexn (c8 : Nat)
  | flush
  | check (v16 : Nat)
  deriving DecidableEq, Repr

/-- The operand ranges of R90: 0x0000 to 0xFFFF, 0x00 to 0xFF, 0 or 1. -/
def SourceCommand.wellFormed : SourceCommand → Bool
  | .nop => true
  | .init v16 => decide (v16 ≤ 0xFFFF)
  | .bytet b8 => decide (b8 ≤ 0xFF)
  | .byteb b8 => decide (b8 ≤ 0xFF)
  | .bitb d1 => decide (d1 ≤ 1)
  | .hext c8 => decide (c8 ≤ 0xFF)
  | .hexb c8 => decide (c8 ≤ 0xFF)
  | .hexn c8 => decide (c8 ≤ 0xFF)
  | .flush => true
  | .check v16 => decide (v16 ≤ 0xFFFF)

/-- The command a well-formed line stands for (its operand at its width, R82). -/
def SourceCommand.toInstr : SourceCommand → Instr
  | .nop => .nop
  | .init v16 => .init (BitVec.ofNat 16 v16)
  | .bytet b8 => .bytet (BitVec.ofNat 8 b8)
  | .byteb b8 => .byteb (BitVec.ofNat 8 b8)
  | .bitb d1 => .bitb (BitVec.ofNat 1 d1)
  | .hext c8 => .hext (BitVec.ofNat 8 c8)
  | .hexb c8 => .hexb (BitVec.ofNat 8 c8)
  | .hexn c8 => .hexn (BitVec.ofNat 8 c8)
  | .flush => .flush
  | .check v16 => .check (BitVec.ofNat 16 v16)

/-- The line that writes a command: every command has one. -/
def Instr.toSource : Instr → SourceCommand
  | .nop => .nop
  | .init v16 => .init v16.toNat
  | .bytet b8 => .bytet b8.toNat
  | .byteb b8 => .byteb b8.toNat
  | .bitb d1 => .bitb d1.toNat
  | .hext c8 => .hext c8.toNat
  | .hexb c8 => .hexb c8.toNat
  | .hexn c8 => .hexn c8.toNat
  | .flush => .flush
  | .check v16 => .check v16.toNat

/-- A command is well formed when the line that writes it is. -/
def Instr.wellFormed (i : Instr) : Bool := i.toSource.wellFormed

end Sys2Proof
end

