-- ==== Sys2Proof/Decode.lean ====
section
/-! DEFINITION. From command words to commands and back: the fields of R80, the map of R85, the algorithm of R87. -/

namespace Sys2Proof

/-- `OP = w[31:24]` (R80). -/
def opField (w : Word) : BitVec 8 := w.extractLsb' 24 8

/-- `RSV = w[23:16]` (R80). -/
def rsvField (w : Word) : BitVec 8 := w.extractLsb' 16 8

/-- `IMM = w[15:0]` (R80). -/
def immField (w : Word) : BitVec 16 := w.extractLsb' 0 16

/-- Why a word is illegal: the three grounds of R88. The block records none of them (R164); the name is
the model's (assumption log 13). -/
inductive Illegal where
  /-- "a non-zero RSV field" -/
  | reservedField
  /-- "an OP of 0x0A to 0xFF" -/
  | unknownOpcode
  /-- "a non-zero bit in the MBZ set of its OP" -/
  | mustBeZero
  deriving DecidableEq, Repr

/-- No operand: all of IMM must be zero (R85, MBZ 15:0). -/
def decodeNone (imm : BitVec 16) (i : Instr) : Except Illegal Instr :=
  if imm = 0x0000#16 then .ok i else .error .mustBeZero

/-- A byte operand: IMM[7:0], with IMM[15:8] zero (R82, R85). -/
def decodeByte (imm : BitVec 16) (mk : Byte → Instr) : Except Illegal Instr :=
  if imm.extractLsb' 8 8 = 0x00#8 then .ok (mk (imm.extractLsb' 0 8)) else .error .mustBeZero

/-- A bit operand: IMM[0], with IMM[15:1] zero (R82, R85). -/
def decodeBit (imm : BitVec 16) (mk : BitVec 1 → Instr) : Except Illegal Instr :=
  if imm.extractLsb' 1 15 = 0#15 then .ok (mk (imm.extractLsb' 0 1)) else .error .mustBeZero

/-- The decode algorithm of R87, total on every 32-bit word. -/
def decode (w : Word) : Except Illegal Instr :=
  if rsvField w ≠ 0x00#8 then .error .reservedField
  else if opField w = 0x00#8 then decodeNone (immField w) .nop
  else if opField w = 0x01#8 then .ok (.init (immField w))
  else if opField w = 0x02#8 then decodeByte (immField w) .bytet
  else if opField w = 0x03#8 then decodeByte (immField w) .byteb
  else if opField w = 0x04#8 then decodeBit (immField w) .bitb
  else if opField w = 0x05#8 then decodeByte (immField w) .hext
  else if opField w = 0x06#8 then decodeByte (immField w) .hexb
  else if opField w = 0x07#8 then decodeByte (immField w) .hexn
  else if opField w = 0x08#8 then decodeNone (immField w) .flush
  else if opField w = 0x09#8 then .ok (.check (immField w))
  else .error .unknownOpcode

/-- A command word from its three fields (R80). -/
def commandWord (op : BitVec 8) (imm : BitVec 16) : Word := op ++ 0x00#8 ++ imm

/-- The word of a command, written from the bit patterns of R85. -/
def encode : Instr → Word
  | .nop => commandWord 0x00#8 0x0000#16
  | .init v16 => commandWord 0x01#8 v16
  | .bytet b8 => commandWord 0x02#8 (0x00#8 ++ b8)
  | .byteb b8 => commandWord 0x03#8 (0x00#8 ++ b8)
  | .bitb d1 => commandWord 0x04#8 (0#15 ++ d1)
  | .hext c8 => commandWord 0x05#8 (0x00#8 ++ c8)
  | .hexb c8 => commandWord 0x06#8 (0x00#8 ++ c8)
  | .hexn c8 => commandWord 0x07#8 (0x00#8 ++ c8)
  | .flush => commandWord 0x08#8 0x0000#16
  | .check v16 => commandWord 0x09#8 v16

/-- A row of R85's map: `(w & mask) == match` selects the command. -/
structure CommandRow where
  mnemonic : String
  matchBits : Word
  mask : Word
  deriving DecidableEq, Repr

/-- Whether a row selects a word (R85). -/
def CommandRow.selects (r : CommandRow) (w : Word) : Bool := w &&& r.mask == r.matchBits

/-- The ten rows of R85's map, match and mask as printed there. -/
def commandRows : List CommandRow :=
  [⟨"NOP", 0x00000000#32, 0xFFFFFFFF#32⟩,
   ⟨"INIT", 0x01000000#32, 0xFFFF0000#32⟩,
   ⟨"BYTET", 0x02000000#32, 0xFFFFFF00#32⟩,
   ⟨"BYTEB", 0x03000000#32, 0xFFFFFF00#32⟩,
   ⟨"BITB", 0x04000000#32, 0xFFFFFFFE#32⟩,
   ⟨"HEXT", 0x05000000#32, 0xFFFFFF00#32⟩,
   ⟨"HEXB", 0x06000000#32, 0xFFFFFF00#32⟩,
   ⟨"HEXN", 0x07000000#32, 0xFFFFFF00#32⟩,
   ⟨"FLUSH", 0x08000000#32, 0xFFFFFFFF#32⟩,
   ⟨"CHECK", 0x09000000#32, 0xFFFF0000#32⟩]

/-- A numbered instruction of spec/opcode_table.json as a command word: bits `nbits` and up are zero;
`none` where that is no 32-bit value, since "There is no other length" (R81, assumption log 14). -/
def tableWord (nbits w : Nat) : Option Word :=
  let v := w % 2 ^ nbits
  if v < 2 ^ 32 then some (BitVec.ofNat 32 v) else none

/-- What the decoder reads from a numbered instruction of the table. -/
def decodeTableWord (nbits w : Nat) : Option Instr :=
  match tableWord nbits w with
  | some word =>
    match decode word with
    | .ok i => some i
    | .error _ => none
  | none => none

end Sys2Proof
end

