-- ==== Sys2Proof/Machine/State.lean ====
section
/-! DEFINITION. The machine's state (R33), the inputs the host and the platform present, the fault and refusal types, and reset (R180). -/

namespace Sys2Proof.Machine

/-- One access of the host to the register window (R8, R50): `n` is the access width in bytes, of which
only 4 is performed (R51). -/
inductive Access where
  /-- `MemRead(BASE + off, n)` -/
  | read (off : Offset) (n : Nat)
  /-- `MemWrite(BASE + off, n, v)`; `v` is the 32-bit data path's value (assumption log 9) -/
  | write (off : Offset) (n : Nat) (v : Word)
  deriving DecidableEq, Repr

/-- What the outside world presents to the block: an access at the port (R50), or an edge of the reset
input the platform drives (R180, assumption log 4). -/
inductive Input where
  | access (a : Access)
  /-- the reset input becomes asserted (`true`) or released (`false`) -/
  | reset (asserted : Bool)
  deriving DecidableEq, Repr

/-- How the port answers an accepted access. -/
inductive Response where
  /-- a write that completed normally (R55, R56, R88) -/
  | ok
  /-- a read's value (R53) -/
  | data (v : Word)
  /-- the error response (R160); "recorded value: none" (R164) -/
  | busError
  deriving DecidableEq, Repr

/-- The state. The first nine fields are R33's list, of which `PARAM` and the table are constants
(`Config.param`, `tableEntry`; assumption log 5). The last three are the block's surroundings. -/
structure State where
  /-- R20 -/
  crc : Crc
  /-- CTRL bit 0, R22 -/
  strict : Bool
  /-- STATUS bit 0, R23 -/
  errHex : Bool
  /-- STATUS bit 1, R23 -/
  errOdd : Bool
  /-- STATUS bit 2, R23 -/
  errCmd : Bool
  /-- STATUS bit 3, R25 -/
  half : Bool
  /-- STATUS bit 4, R27 -/
  matchFlag : Bool
  /-- STATUS bits 11:8, R25 -/
  hinib : Nibble
  /-- R26 -/
  lastByte : Byte
  /-- the inputs still to be taken, in acceptance order (R60, assumption log 1) -/
  port : List Input
  /-- the level of the reset input (R180, assumption log 4) -/
  resetPin : Bool
  /-- the port's answer to the last input taken (assumption log 2) -/
  response : Option Response
  deriving DecidableEq, Repr

/-- What an access can raise. No step of the machine ends in it. -/
inductive Fault where
  /-- `raise BusError(off)` (R8, R160): yielded by `resolveRead`, `resolveWrite` and `memRead` for an
  access R51, R52, R53, R57 or R58 reject. The step turns it into the error response and goes on, as R160
  says, so it stops nothing: safe (assumption log 3). -/
  | busError (off : Offset)
  deriving DecidableEq, Repr

/-- Reasons for which an instruction has no meaning. No arm of `exec` uses one. -/
inductive Refusal where
  /-- An instruction of the table that the model leaves out, by its mnemonic: none is left out. Safe. -/
  | notModelled (mnemonic : String)
  deriving DecidableEq, Repr

/-- The machine right after reset (R33, R180): nothing presented to the port, the reset input released,
no response yet (assumption logs 1, 2, 4). -/
def State.reset : State where
  crc := 0xFFFF#16
  strict := false
  errHex := false
  errOdd := false
  errCmd := false
  half := false
  matchFlag := false
  hinib := 0x0#4
  lastByte := 0x00#8
  port := []
  resetPin := false
  response := none

end Sys2Proof.Machine
end

