-- ==== Sys2Proof/Machine/Ops.lean ====
section
/-! DEFINITION. The named operations on the state that the meanings share. -/

namespace Sys2Proof.Machine

/-- The conditions a sticky STATUS bit reports (R161 to R164). -/
inductive Condition where
  /-- IllegalCommand, ERR_CMD (R161) -/
  | illegalCommand
  /-- InvalidHexDigit, ERR_HEX (R162) -/
  | invalidHexDigit
  /-- OddLengthInput, ERR_ODD (R163) -/
  | oddLengthInput
  deriving DecidableEq, Repr

/-- Raising a condition: the block's whole exception entry. R167: no control transfer, nothing saved, no
mode changed; "the listed flag is the whole effect on the error state". Sticky: a set bit stays set
(R168). -/
def raise (c : Condition) (s : State) : State :=
  match c with
  | .illegalCommand => { s with errCmd := true }
  | .invalidHexDigit => { s with errHex := true }
  | .oddLengthInput => { s with errOdd := true }

/-- Clearing the three sticky bits together: what INIT does (R168). There is no trap return (R168). -/
def clearErrors (s : State) : State :=
  { s with errHex := false, errOdd := false, errCmd := false }

/-- `crc <- v`. -/
def loadCrc (v : Crc) (s : State) : State := { s with crc := v }

/-- `STRICT <- b` (R56). -/
def writeStrict (b : Bool) (s : State) : State := { s with strict := b }

/-- `MATCH <- b` (R142). -/
def writeMatch (b : Bool) (s : State) : State := { s with matchFlag := b }

/-- The first character of a pair: `HINIB <- n`, `HALF <- 1` (R102). -/
def holdNibble (n : Nibble) (s : State) : State := { s with hinib := n, half := true }

/-- `HALF <- 0`, `HINIB <- 0x0` (R102, R106, R141). -/
def dropNibble (s : State) : State := { s with hinib := 0x0#4, half := false }

/-- The second character of a pair: the byte goes to LASTBYTE and the pair is done (R102). -/
def completePair (b : Byte) (s : State) : State := dropNibble { s with lastByte := b }

/-- The port's answer to the input just taken (assumption log 2). -/
def respond (r : Option Response) (s : State) : State := { s with response := r }

/-- Every element of the block at its reset value (R180), the surroundings as they are. -/
def resetBlock (s : State) : State :=
  { State.reset with port := s.port, resetPin := s.resetPin, response := s.response }

end Sys2Proof.Machine
end

