-- ==== Sys2Proof/Machine/Operands.lean ====
section
/-! DEFINITION. What an operand stands for: the digit value and the class of a character (R100, R101), the checksum field of two bytes (R67). -/

namespace Sys2Proof.Machine

/-- `Raw(c)` (R100): modulo 256, the character unsigned. -/
def rawDigit (c : Byte) : Byte :=
  if 0x41#8 ≤ c then c - 0x37#8 else c - 0x30#8

/-- `Nib(c) = Raw(c)[3:0]` (R100). -/
def nib (c : Byte) : Nibble := (rawDigit c).extractLsb' 0 4

/-- `IsHex(c)` (R101). -/
def isHex (c : Byte) : Bool :=
  decide (0x30#8 ≤ c ∧ c ≤ 0x39#8) || decide (0x41#8 ≤ c ∧ c ≤ 0x46#8) || decide (0x61#8 ≤ c ∧ c ≤ 0x66#8)

/-- The checksum field read as a 16-bit value, `{fld[1], fld[0]}` (R67). -/
def fieldValue (f0 f1 : Byte) : BitVec 16 := f1 ++ f0

/-- The two bytes of a final checksum in wire order: `fld[0] = f[7:0]`, `fld[1] = f[15:8]` (R67). -/
def fieldBytes (f : BitVec 16) : List Byte := [f.extractLsb' 0 8, f.extractLsb' 8 8]

end Sys2Proof.Machine
end

