-- ==== Sys2Proof/Machine/Flags.lean ====
section
/-! DEFINITION. The STATUS and CTRL words and how MATCH is computed (R22, R23, R53, R142). -/

namespace Sys2Proof.Machine

/-- The final checksum `~crc` (R143), which RESULT shows. -/
def finalChecksum (s : State) : Crc := ~~~s.crc

/-- `(~crc) == v16` (R142). -/
def checksumMatches (v16 : BitVec 16) (s : State) : Bool := finalChecksum s == v16

/-- STATUS as R53 reads it: `zext_32({HINIB, 0b000, MATCH, HALF, ERR_CMD, ERR_ODD, ERR_HEX})`. -/
def statusWord (s : State) : Word :=
  0#20 ++ s.hinib ++ 0b000#3 ++ BitVec.ofBool s.matchFlag ++ BitVec.ofBool s.half ++
    BitVec.ofBool s.errCmd ++ BitVec.ofBool s.errOdd ++ BitVec.ofBool s.errHex

/-- CTRL as R22 reads it: `zext_32(STRICT)`. -/
def ctrlWord (s : State) : Word := (BitVec.ofBool s.strict).setWidth 32

end Sys2Proof.Machine
end

