-- ==== Sys2Proof/Machine/Control.lean ====
section
/-! DEFINITION. The control commands (R140 to R142): NOP, INIT, CHECK. -/

namespace Sys2Proof.Machine

/-- NOP (R140). -/
def execNop (s : State) : Host.Outcome State Fault Refusal := .next s

/-- INIT (R141). -/
def execInit (v16 : BitVec 16) (s : State) : Host.Outcome State Fault Refusal :=
  .next (clearErrors (writeMatch false (dropNibble (loadCrc v16 s))))

/-- CHECK (R142). -/
def execCheck (v16 : BitVec 16) (s : State) : Host.Outcome State Fault Refusal :=
  .next (writeMatch (checksumMatches v16 s) s)

end Sys2Proof.Machine
end

