-- ==== Sys2Proof/Machine/CrcBitwise.lean ====
section
/-! DEFINITION. The bitwise path (R130 to R132): BITB and BYTEB. -/

namespace Sys2Proof.Machine

/-- `BitStep(crc, d)` (R130). -/
def bitStep (crc : Crc) (d : Bool) : Crc :=
  if d ^^ crc.getLsbD 0 then (crc >>> 1) ^^^ Config.crc16Poly else crc >>> 1

/-- `n` bit steps on bits `b[k]`, `b[k+1]`, ... of a byte, least significant first. -/
def bitSteps : Nat → Nat → Crc → Byte → Crc
  | 0, _, crc, _ => crc
  | n + 1, k, crc, b => bitSteps n (k + 1) (bitStep crc (b.getLsbD k)) b

/-- `BytewiseStep(crc, b)` (R131): `k` in 0..7. -/
def bytewiseStep (crc : Crc) (b : Byte) : Crc := bitSteps 8 0 crc b

/-- BITB (R130). -/
def execBitb (d1 : BitVec 1) (s : State) : Host.Outcome State Fault Refusal :=
  .next (loadCrc (bitStep s.crc (d1.getLsbD 0)) s)

/-- BYTEB (R132). -/
def execByteb (b8 : BitVec 8) (s : State) : Host.Outcome State Fault Refusal :=
  .next (loadCrc (bytewiseStep s.crc b8) s)

end Sys2Proof.Machine
end

