-- ==== Sys2Proof/Machine/HexDecoder.lean ====
section
/-! DEFINITION. The hex decoder (R102 to R106): HEXT, HEXB, HEXN, FLUSH. -/

namespace Sys2Proof.Machine

/-- `HexAccept(c)` (R102): the new state and `NoByte` (`none`) or `Byte(b)`. -/
def hexAccept (c : Byte) (s : State) : State × Option Byte :=
  if s.strict && !isHex c then (raise .invalidHexDigit s, none)
  else if s.half then (completePair (s.hinib ++ nib c) s, some (s.hinib ++ nib c))
  else (holdNibble (nib c) s, none)

/-- What a hex command does with the outcome of `HexAccept`: a completed byte goes through the CRC path
`path` (R103, R104). -/
def feedByte (path : Crc → Byte → Crc) (r : State × Option Byte) : State :=
  match r.2 with
  | some b => loadCrc (path r.1.crc b) r.1
  | none => r.1

/-- HEXT (R103). -/
def execHext (c8 : BitVec 8) (s : State) : Host.Outcome State Fault Refusal :=
  .next (feedByte tableStep (hexAccept c8 s))

/-- HEXB (R104). -/
def execHexb (c8 : BitVec 8) (s : State) : Host.Outcome State Fault Refusal :=
  .next (feedByte bytewiseStep (hexAccept c8 s))

/-- HEXN (R105): the byte is not used, `crc` is unchanged. -/
def execHexn (c8 : BitVec 8) (s : State) : Host.Outcome State Fault Refusal :=
  .next (hexAccept c8 s).1

/-- FLUSH (R106). -/
def execFlush (s : State) : Host.Outcome State Fault Refusal :=
  .next (if s.half then dropNibble (if s.strict then raise .oddLengthInput s else s) else s)

end Sys2Proof.Machine
end

