-- ==== Sys2Proof/Machine/Dispatch.lean ====
section
/-! DEFINITION. One arm per command: its meaning. -/

namespace Sys2Proof.Machine

/-- The effect of a decoded command (R80: "apply the rule of the decoded command"). -/
def exec (i : Instr) (s : State) : Host.Outcome State Fault Refusal :=
  match i with
  | .nop => Sys2Proof.Machine.execNop s
  | .init v16 => Sys2Proof.Machine.execInit v16 s
  | .bytet b8 => Sys2Proof.Machine.execBytet b8 s
  | .byteb b8 => Sys2Proof.Machine.execByteb b8 s
  | .bitb d1 => Sys2Proof.Machine.execBitb d1 s
  | .hext c8 => Sys2Proof.Machine.execHext c8 s
  | .hexb c8 => Sys2Proof.Machine.execHexb c8 s
  | .hexn c8 => Sys2Proof.Machine.execHexn c8 s
  | .flush => Sys2Proof.Machine.execFlush s
  | .check v16 => Sys2Proof.Machine.execCheck v16 s

end Sys2Proof.Machine
end

