-- ==== Sys2Proof/Machine/Window.lean ====
section
/-! DEFINITION. The register window (R50 to R58): which offset is which register, and reading one. -/

namespace Sys2Proof.Machine

/-- The registers R52 marks readable. CMD is not one of them. -/
inductive ReadReg where
  | ctrl
  | status
  | crc
  | result
  | lastByte
  | param
  /-- `T[i]` -/
  | table (i : Byte)
  deriving DecidableEq, Repr

/-- The registers R52 marks writable. -/
inductive WriteReg where
  | cmd
  | ctrl
  deriving DecidableEq, Repr

/-- R52's map for reads; `none` where R52 gives no readable register. -/
def readAt (off : Offset) : Option ReadReg :=
  if off = 0x004#12 then some .ctrl
  else if off = 0x008#12 then some .status
  else if off = 0x00C#12 then some .crc
  else if off = 0x010#12 then some .result
  else if off = 0x014#12 then some .lastByte
  else if off = 0x018#12 then some .param
  else if 0x400#12 ≤ off ∧ off ≤ 0x7FC#12 then some (.table (off.extractLsb' 2 8))
  else none

/-- R52's map for writes; `none` where R52 gives no writable register. -/
def writeAt (off : Offset) : Option WriteReg :=
  if off = 0x000#12 then some .cmd
  else if off = 0x004#12 then some .ctrl
  else none

/-- R51: 32 bits wide and 4-byte aligned. -/
def admitted (off : Offset) (n : Nat) : Bool := n == 4 && off.extractLsb' 0 2 == 0b00#2

/-- The register a read reaches, or `raise BusError(off)` (R51, R52, R53, R58). -/
def resolveRead (off : Offset) (n : Nat) : Except Fault ReadReg :=
  if admitted off n then
    match readAt off with
    | some r => .ok r
    | none => .error (.busError off)
  else .error (.busError off)

/-- The register a write reaches, or `raise BusError(off)` (R51, R52, R57, R58). -/
def resolveWrite (off : Offset) (n : Nat) : Except Fault WriteReg :=
  if admitted off n then
    match writeAt off with
    | some r => .ok r
    | none => .error (.busError off)
  else .error (.busError off)

/-- A register's value as a 32-bit word (R53, R66). -/
def readReg (r : ReadReg) (s : State) : Word :=
  match r with
  | .ctrl => ctrlWord s
  | .status => statusWord s
  | .crc => s.crc.setWidth 32
  | .result => (finalChecksum s).setWidth 32
  | .lastByte => s.lastByte.setWidth 32
  | .param => Config.param
  | .table i => (tableEntry i).setWidth 32

/-- `MemRead(BASE + off, n)` (R53): the value, or `raise BusError(off)`. It has no state to return: no
read has a side effect (R54). -/
def memRead (off : Offset) (n : Nat) (s : State) : Except Fault Word :=
  match resolveRead off n with
  | .ok r => .ok (readReg r s)
  | .error e => .error e

/-- The offset R52 gives a readable register. -/
def ReadReg.offset : ReadReg → Offset
  | .ctrl => 0x004#12
  | .status => 0x008#12
  | .crc => 0x00C#12
  | .result => 0x010#12
  | .lastByte => 0x014#12
  | .param => 0x018#12
  | .table i => 0x400#12 + (i.setWidth 12 <<< 2)

/-- The bus address of a window offset, `BASE + off` (R6, R50). -/
def busAddress (off : Offset) : Nat := Config.base + off.toNat

/-- The window offset of a bus address, if the window holds it (R6, R50). -/
def windowOffset (addr : Nat) : Option Offset :=
  if Config.base ≤ addr ∧ addr < Config.base + Config.windowSize then
    some (BitVec.ofNat 12 (addr - Config.base))
  else none

end Sys2Proof.Machine
end

