-- ==== Sys2Proof/Machine/Port.lean ====
section
/-! DEFINITION. Serving one input: executing a command word (R80), writing a register (R55, R56), an access (R51 to R58, R160), an edge of reset (R180). -/

namespace Sys2Proof.Machine

/-- `Execute(w)` (R80, R88). -/
def executeWord (w : Word) (s : State) : Host.Outcome State Fault Refusal :=
  match decode w with
  | .ok i => exec i s
  | .error _ => .next (raise .illegalCommand s)

/-- A write that R52 admits (R55, R56). -/
def writeReg (r : WriteReg) (v : Word) (s : State) : Host.Outcome State Fault Refusal :=
  match r with
  | .cmd => executeWord v s
  | .ctrl => .next (writeStrict (v.getLsbD 0) s)

/-- One access at the port. A rejected access "completes with an error response on the bus" and
"changes no state of the block" (R160, assumption log 3). -/
def serveAccess (a : Access) (s : State) : Host.Outcome State Fault Refusal :=
  match a with
  | .read off n =>
    match memRead off n s with
    | .ok v => .next (respond (some (.data v)) s)
    | .error _ => .next (respond (some .busError) s)
  | .write off n v =>
    match resolveWrite off n with
    | .ok r => writeReg r v (respond (some .ok) s)
    | .error _ => .next (respond (some .busError) s)

/-- One input. While reset is asserted no access is accepted, so it gets no response (R180,
assumption log 4). -/
def serveInput (x : Input) (s : State) : Host.Outcome State Fault Refusal :=
  match x with
  | .access a => if s.resetPin then .next (respond none s) else serveAccess a s
  | .reset true => .next (respond none (resetBlock { s with resetPin := true }))
  | .reset false => .next (respond none { s with resetPin := false })

/-- A command written to CMD: `MemWrite(BASE + 0x000, 4, w)` (R55). -/
def commandWrite (w : Word) : Input := .access (.write 0x000#12 4 w)

/-- The state with a numbered instruction of the table as the next input: its word written to CMD, with
the reset input released so that the write is accepted (assumption log 1). -/
def presentWord (s : State) (nbits w : Nat) : State :=
  { s with
    port := commandWrite (BitVec.ofNat 32 (w % 2 ^ nbits)) :: s.port
    resetPin := false }

end Sys2Proof.Machine
end

