-- ==== Sys2Proof/Machine/Step.lean ====
section
/-! DEFINITION. One step: the next input of the port, or none (R59, R60, R188). -/

namespace Sys2Proof.Machine

/-- "The block takes exactly one step per accepted access ... It takes no step of its own between
accesses" (R59): with nothing presented, nothing changes (R188). -/
def step (s : State) : Host.Outcome State Fault Refusal :=
  match s.port with
  | [] => .next s
  | x :: rest => serveInput x { s with port := rest }

/-- The state whose very next step takes the given instruction word (assumption log 1). -/
def State.withFetchWord (s : State) (nbits w : Nat) : State := presentWord s nbits w

end Sys2Proof.Machine
end

