-- ==== Sys2Proof/Machine/Sequence.lean ====
section
/-! DEFINITION. The source's functions over whole sequences (R107, R123, R134) a sequence of commands run in order, a number of steps. -/

namespace Sys2Proof.Machine

/-- Commands executed one after another, in the order given (R60), stopping where one does not answer a
next state (none of them does so). -/
def execAll : List Instr → State → Host.Outcome State Fault Refusal
  | [], s => .next s
  | i :: is, s =>
    match exec i s with
    | .next t => execAll is t
    | .fault f => .fault f
    | .refused r => .refused r

/-- `k` steps, stopping where one does not answer a next state (none of them does so). -/
def runSteps : Nat → State → Host.Outcome State Fault Refusal
  | 0, s => .next s
  | k + 1, s =>
    match step s with
    | .next t => runSteps k t
    | .fault f => .fault f
    | .refused r => .refused r

/-- The source's `crc16_table(B, init)` (R123): one `TableStep` per byte, left to right. -/
def crc16Table (bytes : List Byte) (init : Crc) : Crc := bytes.foldl tableStep init

/-- The source's `crc16_bitwise(B, init)` (R134). -/
def crc16Bitwise (bytes : List Byte) (init : Crc) : Crc := bytes.foldl bytewiseStep init

/-- The byte two characters decode to (R107):
`((Raw(c1) << 4) & 0xFF) | (Raw(c2) & 0x0F)`. -/
def pairByte (c1 c2 : Byte) : Byte := (rawDigit c1 <<< 4) ||| (rawDigit c2 &&& 0x0F#8)

/-- The source's `hex_decode(s, n)` with `n` the length of `s` (R107); an odd last character is dropped. -/
def hexDecode : List Byte → List Byte
  | c1 :: c2 :: cs => pairByte c1 c2 :: hexDecode cs
  | [_] => []
  | [] => []

/-- The bits `v[0]`, ..., `v[n-1]` (R91 `BITS`). -/
def bitsOf (v : Nat) (n : Nat) : List (BitVec 1) := (List.range n).map fun k => BitVec.ofBool (v.testBit k)

end Sys2Proof.Machine
end

