-- ==== Sys2Proof/Machine/Assembler.lean ====
section
/-! DEFINITION. The assembly syntax: lines and the accesses they stand for (R90), pseudo-instructions (R91). -/

namespace Sys2Proof.Machine

/-- A command line's word, or none: "An operand outside its range is refused by the assembler" (R90). -/
def assembleCommand (c : SourceCommand) : Option Word :=
  if c.wellFormed then some (encode c.toInstr) else none

/-- The registers `RD` names (R90), the table index as written. -/
inductive RegName where
  | ctrl
  | status
  | crc
  | result
  | lastByte
  | param
  | table (i : Nat)
  deriving DecidableEq, Repr

/-- The register a name stands for; the table has the indices 0 to 255 (R29). -/
def RegName.toReadReg : RegName → Option ReadReg
  | .ctrl => some .ctrl
  | .status => some .status
  | .crc => some .crc
  | .result => some .result
  | .lastByte => some .lastByte
  | .param => some .param
  | .table i => if i < 256 then some (.table (BitVec.ofNat 8 i)) else none

/-- A line of R90: a command, `WR CTRL, <v>` or `RD <reg>`. DESIGN CHOICE: the line `WORD <w>` that program P4
of 95_test_vectors.md writes (its table: `.word`), which R90's list does not give, is left out of the syntax
(assumption log 16); the access it stands for is `commandWrite w`, which the machine takes. -/
inductive Line where
  | command (c : SourceCommand)
  | wrCtrl (v : Nat)
  | rd (r : RegName)
  deriving DecidableEq, Repr

/-- The access a line stands for, or none where the assembler refuses it (R90; the range of `WR`'s
value is the data path's, assumption log 15). -/
def Line.toAccess : Line → Option Access
  | .command c => (assembleCommand c).map (Access.write 0x000#12 4)
  | .wrCtrl v => if v < 2 ^ 32 then some (.write 0x004#12 4 (BitVec.ofNat 32 v)) else none
  | .rd r => r.toReadReg.map fun reg => .read reg.offset 4

/-- The pseudo-instructions (R91); the value of `BITS` is a number of any size (assumption log 15). -/
inductive Pseudo where
  | start
  | hexstrT (s : List Byte)
  | hexstrB (s : List Byte)
  | hexstrN (s : List Byte)
  | bytesT (bs : List Byte)
  | bytesB (bs : List Byte)
  | bits (v n : Nat)
  | checkle (f0 f1 : Byte)
  deriving DecidableEq, Repr

/-- The expansions, in order (R91). -/
def Pseudo.expand : Pseudo → List Instr
  | .start => [.init Config.crc16InitValue]
  | .hexstrT s => s.map .hext ++ [.flush]
  | .hexstrB s => s.map .hexb ++ [.flush]
  | .hexstrN s => s.map .hexn ++ [.flush]
  | .bytesT bs => bs.map .bytet
  | .bytesB bs => bs.map .byteb
  | .bits v n => (bitsOf v n).map .bitb
  | .checkle f0 f1 => [.check (fieldValue f0 f1)]

end Sys2Proof.Machine
end

