-- ==== Sys2Proof/Safety.lean ====
section
/-! DEFINITION. What claims call safe: the invariant of the block, a clean STATUS, and the ways an element may be written. -/

namespace Sys2Proof.Machine

/-- R25: "`HALF = 0` implies `HINIB = 0`". -/
def State.pairConsistent (s : State) : Prop := s.half = false → s.hinib = 0x0#4

/-- R180: while the reset input is asserted the block is at its reset values, since it "takes no step". -/
def State.heldInReset (s : State) : Prop :=
  s.resetPin = true → s = { State.reset with port := s.port, resetPin := true, response := s.response }

/-- The invariant every step keeps. -/
structure State.Inv (s : State) : Prop where
  pair : s.pairConsistent
  held : s.heldInReset

/-- No sticky error bit is set: what R24 and R187 tell the host to look for before it trusts RESULT. -/
def State.noErrors (s : State) : Prop := s.errHex = false ∧ s.errOdd = false ∧ s.errCmd = false

/-- The command the next step executes, if the next input is an accepted command write. -/
def State.nextCommand (s : State) : Option Instr :=
  match s.port with
  | .access (.write off n w) :: _ =>
    if s.resetPin = false ∧ off = 0x000#12 ∧ n = 4 then (decode w).toOption else none
  | _ => none

/-- The next step asserts reset. -/
def State.nextIsReset (s : State) : Prop := s.port.head? = some (.reset true)

/-- The next step is an accepted write of `v` to CTRL. -/
def State.nextWritesCtrl (s : State) (v : Word) : Prop :=
  s.resetPin = false ∧ s.port.head? = some (.access (.write 0x004#12 4 v))

end Sys2Proof.Machine
end

