-- ==== Sys2Proof/Certificates/Slice0/Obligations.lean ====
section
/-! DEFINITION. The statements for the provers, each from the rules it names.

An access's answer is the spec's (R53, R88, R160); the tape of inputs, and what becomes of an access while
reset is asserted, are the model's (assumption logs 1, 2, 4). Statements that speak of the tape say so. -/

namespace Sys2Proof.Spec

open Sys2Proof.Machine

/-- The encoding of a command whose operand is IMM[7:0] (R85): the word of each operand decodes to the
command, and a word of that opcode with a bit of RSV or of IMM[15:8] set is illegal. -/
def byteEncoding (op : BitVec 8) (mk : Byte → Instr) : Prop :=
  (∀ b : Byte, decode (op ++ 0x00#8 ++ 0x00#8 ++ b) = .ok (mk b)) ∧
  ∀ w : Word, w.extractLsb' 24 8 = op → w.extractLsb' 8 16 ≠ 0x0000#16 → ∃ e, decode w = .error e

/-- The encoding of a command without operand (R85): one word, any other of that opcode illegal. -/
def noneEncoding (op : BitVec 8) (i : Instr) : Prop :=
  decode (op ++ 0x000000#24) = .ok i ∧
  ∀ w : Word, w.extractLsb' 24 8 = op → w.extractLsb' 0 24 ≠ 0x000000#24 → ∃ e, decode w = .error e

/-- The encoding of a command whose operand is all of IMM (R85): RSV must be 0. -/
def halfwordEncoding (op : BitVec 8) (mk : BitVec 16 → Instr) : Prop :=
  (∀ v : BitVec 16, decode (op ++ 0x00#8 ++ v) = .ok (mk v)) ∧
  ∀ w : Word, w.extractLsb' 24 8 = op → w.extractLsb' 16 8 ≠ 0x00#8 → ∃ e, decode w = .error e

/-- What a hex command does with its character (R102 and the command's own action): `newCrc crc b` is the
CRC register after a completed byte `b`. Three cases that between them meet every state and character. -/
def hexCommand (mk : Byte → Instr) (newCrc : Crc → Byte → Crc) : Prop :=
  ∀ (s : State) (c : Byte),
    (s.strict = true → isHex c = false → exec (mk c) s = .next { s with errHex := true }) ∧
    (s.strict = false ∨ isHex c = true → s.half = false →
      exec (mk c) s = .next { s with half := true, hinib := nib c }) ∧
    (s.strict = false ∨ isHex c = true → s.half = true →
      exec (mk c) s = .next { s with
        lastByte := s.hinib ++ nib c
        half := false
        hinib := 0x0#4
        crc := newCrc s.crc (s.hinib ++ nib c) })

/-- The bits that must be 0 in IMM, by opcode (R85); an opcode with no command has no operand to keep. -/
def immMustBeZero (op : BitVec 8) : BitVec 16 :=
  if op = 0x00#8 ∨ op = 0x08#8 then 0xFFFF#16
  else if op = 0x02#8 ∨ op = 0x03#8 ∨ op = 0x05#8 ∨ op = 0x06#8 ∨ op = 0x07#8 then 0xFF00#16
  else if op = 0x04#8 then 0xFFFE#16
  else 0x0000#16

/-- Illegal as R88 words it. -/
abbrev illegalWord (w : Word) : Prop :=
  0x0A#8 ≤ w.extractLsb' 24 8 ∨ w.extractLsb' 16 8 ≠ 0x00#8 ∨
    w.extractLsb' 0 16 &&& immMustBeZero (w.extractLsb' 24 8) ≠ 0x0000#16

/-- The eight steps of R131, least significant bit first. -/
def eightSteps (crc : Crc) (b : Byte) : Crc :=
  (List.range 8).foldl (fun c k => bitStep c (b.getLsbD k)) crc

/-- The bits of a byte sequence in wire order: least significant bit of each byte first (R68, R135). -/
def wireBits (bytes : List Byte) : List (BitVec 1) := bytes.flatMap fun b => bitsOf b.toNat 8

/-- The error bits of a state made equal to given ones. -/
def withErrors (h o c : Bool) (s : State) : State := { s with errHex := h, errOdd := o, errCmd := c }

/-- A bit that was clear before and is set after. -/
def rises (before after : Bool) : Prop := before = false ∧ after = true

/-- The offsets R52 lets a host read. -/
abbrev readable (off : Offset) : Prop :=
  off.toNat % 4 = 0 ∧ (0x004 ≤ off.toNat ∧ off.toNat ≤ 0x018 ∨ 0x400 ≤ off.toNat ∧ off.toNat ≤ 0x7FC)

/-- Every register of the window reads the same before and after, but for the offsets listed. -/
def windowKept (except : List Offset) (s t : State) : Prop :=
  ∀ (off : Offset) (n : Nat), off ∉ except → memRead off n t = memRead off n s

/-- Nothing of the block's surroundings changed. -/
def surroundingsKept (s t : State) : Prop :=
  t.port = s.port ∧ t.resetPin = s.resetPin ∧ t.response = s.response

/-- A command that completes in every state, keeps STRICT and the surroundings, and in the window changes
only what the listed offsets show. -/
def framedBy (i : Instr) (except : List Offset) : Prop :=
  ∀ s : State, ∃ t, exec i s = .next t ∧ surroundingsKept s t ∧ t.strict = s.strict ∧ windowKept except s t

end Sys2Proof.Spec

section

open Sys2Proof Sys2Proof.Machine Sys2Proof.Spec

/-! ### Encoding and decoding -/

/-- R85, R87: a command's word decodes to the command, every operand at every value. -/
def Obligations.DecodeInvertsEncode : Prop :=
  ∀ i : Instr, i.wellFormed = true ∧ decode (encode i) = .ok i

/-- R81, R85: a word that decodes to a command is that command's word, so no two words share one. -/
def Obligations.EncodeInvertsDecode : Prop :=
  ∀ (w : Word) (i : Instr), decode w = .ok i → encode i = w

/-- R87, its algorithm and its closing sentence: each command exactly on its fields, and a word no row of
R85 selects is illegal, as is every word with a non-zero RSV. -/
def Obligations.DecodeFollowsItsAlgorithm : Prop :=
  ∀ (w : Word) (op rsv : BitVec 8) (imm : BitVec 16), w = op ++ rsv ++ imm →
    (rsv ≠ 0x00#8 → ∃ e, decode w = .error e) ∧
    (rsv = 0x00#8 →
      (op = 0x00#8 → if imm = 0x0000#16 then decode w = .ok .nop else ∃ e, decode w = .error e) ∧
      (op = 0x01#8 → decode w = .ok (.init imm)) ∧
      (op = 0x02#8 → if imm.extractLsb' 8 8 = 0x00#8 then decode w = .ok (.bytet (imm.extractLsb' 0 8))
        else ∃ e, decode w = .error e) ∧
      (op = 0x03#8 → if imm.extractLsb' 8 8 = 0x00#8 then decode w = .ok (.byteb (imm.extractLsb' 0 8))
        else ∃ e, decode w = .error e) ∧
      (op = 0x04#8 → if imm.extractLsb' 1 15 = 0#15 then decode w = .ok (.bitb (imm.extractLsb' 0 1))
        else ∃ e, decode w = .error e) ∧
      (op = 0x05#8 → if imm.extractLsb' 8 8 = 0x00#8 then decode w = .ok (.hext (imm.extractLsb' 0 8))
        else ∃ e, decode w = .error e) ∧
      (op = 0x06#8 → if imm.extractLsb' 8 8 = 0x00#8 then decode w = .ok (.hexb (imm.extractLsb' 0 8))
        else ∃ e, decode w = .error e) ∧
      (op = 0x07#8 → if imm.extractLsb' 8 8 = 0x00#8 then decode w = .ok (.hexn (imm.extractLsb' 0 8))
        else ∃ e, decode w = .error e) ∧
      (op = 0x08#8 → if imm = 0x0000#16 then decode w = .ok .flush else ∃ e, decode w = .error e) ∧
      (op = 0x09#8 → decode w = .ok (.check imm)) ∧
      (0x0A#8 ≤ op → ∃ e, decode w = .error e)) ∧
    ((commandRows.filter fun r => r.selects w).length ≤ 1) ∧
    ((∀ r ∈ commandRows, r.selects w = false) → ∃ e, decode w = .error e)

/-- R85: the match and mask of the map select exactly the words that decode to the row's command. -/
def Obligations.RowSelectsItsCommand : Prop :=
  ∀ (w : Word) (r : CommandRow), r ∈ commandRows →
    (r.selects w = true ↔ ∃ i, decode w = .ok i ∧ i.mnemonic = r.mnemonic)

/-- Words written out bit by bit from R85's patterns decode to what they stand for. -/
def Obligations.SpecWordsDecodeAsWritten : Prop :=
  decode 0b00000000000000000000000000000000#32 = .ok .nop ∧
  decode 0b00000001000000000001001000110100#32 = .ok (.init 0x1234#16) ∧
  decode 0b00000010000000000000000001000001#32 = .ok (.bytet 0x41#8) ∧
  decode 0b00000100000000000000000000000001#32 = .ok (.bitb 1#1) ∧
  decode 0b00000101000000000000000000110100#32 = .ok (.hext 0x34#8) ∧
  decode 0b00001000000000000000000000000000#32 = .ok .flush ∧
  decode 0b00001001000000001001000001101110#32 = .ok (.check 0x906E#16)

/-- R88, R161: an illegal word, by the three grounds R88 names, only sets ERR_CMD, and its write completes
normally. -/
def Obligations.IllegalWordOnlySetsErrCmd : Prop :=
  ∀ (s : State) (w : Word), illegalWord w →
    executeWord w s = .next { s with errCmd := true } ∧
    serveAccess (.write 0x000#12 4 w) s = .next { s with errCmd := true, response := some .ok }

/-- R90: the assembler refuses exactly the operands out of range; a word it emits decodes to the command
with the operand as written. -/
def Obligations.AssemblerEmitsOnlyItsCommands : Prop :=
  ∀ c : SourceCommand,
    (c.wellFormed = false → assembleCommand c = none) ∧
    (c.wellFormed = true → ∃ w, assembleCommand c = some w ∧ decode w = .ok c.toInstr ∧
      c.toInstr.toSource = c)

/-- R90, R52: an `RD` line is a read that reaches the register it names. -/
def Obligations.RdLineReachesItsRegister : Prop :=
  ∀ (r : RegName) (reg : ReadReg), r.toReadReg = some reg →
    ∃ off, Line.toAccess (.rd r) = some (.read off 4) ∧ resolveRead off 4 = .ok reg

/-! ### The commands -/

/-- R140: NOP, its one word and that no state changes, run as a command and as the write that carries it. -/
def Obligations.NopChangesNothing : Prop :=
  noneEncoding 0x00#8 .nop ∧ ∀ s : State, exec .nop s = .next s ∧
    serveAccess (.write 0x000#12 4 0x00000000#32) s = .next { s with response := some .ok }

/-- R141: INIT writes what it lists and leaves STRICT and LASTBYTE; what the window then reads. -/
def Obligations.InitStartsAComputation : Prop :=
  halfwordEncoding 0x01#8 .init ∧
  ∀ (s : State) (v16 : BitVec 16), ∃ t, exec (.init v16) s = .next t ∧
    t = { s with
      crc := v16, half := false, hinib := 0x0#4, matchFlag := false
      errHex := false, errOdd := false, errCmd := false } ∧
    memRead 0x00C#12 4 t = .ok (v16.setWidth 32) ∧
    memRead 0x010#12 4 t = .ok ((~~~v16).setWidth 32) ∧
    memRead 0x008#12 4 t = .ok 0x00000000#32

/-- R120, R121: BYTET, its encoding, its one table update, its corner cases and its example. -/
def Obligations.BytetIsOneTableUpdate : Prop :=
  byteEncoding 0x02#8 .bytet ∧
  (∀ (s : State) (b8 : Byte), exec (.bytet b8) s = .next { s with
    crc := (s.crc.extractLsb' 8 8).setWidth 16 ^^^ tableEntry (s.crc.extractLsb' 0 8 ^^^ b8) }) ∧
  (∀ (crc : Crc) (b : Byte),
    tableStep crc b = (crc >>> 8) ^^^ tableEntry (((crc ^^^ b.setWidth 16) &&& 0x00FF#16).setWidth 8)) ∧
  (∀ c : Crc, tableStep c (c.extractLsb' 0 8) = (c.extractLsb' 8 8).setWidth 16) ∧
  (∀ i : Byte, tableStep 0x0000#16 i = tableEntry i) ∧
  tableStep 0x0000#16 0x00#8 = 0x0000#16 ∧ tableStep 0xFFFF#16 0xFF#8 = 0x00FF#16 ∧
  tableStep 0xFFFF#16 0x41#8 = 0x5C0A#16

/-- R130: BITB, its encoding, its step and its corner cases; bit 15 is set exactly when the XOR is taken. -/
def Obligations.BitbIsOneBitStep : Prop :=
  ((∀ d : BitVec 1, decode (0x04#8 ++ 0x00#8 ++ 0#15 ++ d) = .ok (.bitb d)) ∧
    ∀ w : Word, w.extractLsb' 24 8 = 0x04#8 → w.extractLsb' 1 23 ≠ 0#23 → ∃ e, decode w = .error e) ∧
  (∀ (s : State) (d1 : BitVec 1), exec (.bitb d1) s = .next { s with
    crc := if d1 ^^^ s.crc.extractLsb' 0 1 = 1#1 then (s.crc >>> 1) ^^^ 0x8408#16 else s.crc >>> 1 }) ∧
  (∀ (crc : Crc) (d : Bool), (bitStep crc d).getLsbD 15 = (d ^^ crc.getLsbD 0)) ∧
  bitStep 0x0000#16 false = 0x0000#16 ∧ bitStep 0x0000#16 true = 0x8408#16 ∧
  bitStep 0x0001#16 true = 0x0000#16 ∧ bitStep 0x0001#16 false = 0x8408#16 ∧
  bitStep 0xFFFF#16 true = 0x7FFF#16 ∧ bitStep 0xFFFF#16 false = 0xFBF7#16

/-- R131, R132: BYTEB, its encoding, its eight steps as one command, its corner cases and its example. -/
def Obligations.BytebIsEightBitSteps : Prop :=
  byteEncoding 0x03#8 .byteb ∧
  (∀ (s : State) (b8 : Byte), exec (.byteb b8) s = .next { s with crc := eightSteps s.crc b8 }) ∧
  (∀ (crc : Crc) (b : Byte), bytewiseStep crc b = eightSteps crc b) ∧
  (∀ i : Byte, bytewiseStep 0x0000#16 i = tableEntry i) ∧
  (∀ (crc : Crc) (b : Byte), bytewiseStep crc b = tableStep crc b) ∧
  bytewiseStep 0x0000#16 0x00#8 = 0x0000#16 ∧ bytewiseStep 0x0000#16 0x80#8 = 0x8408#16 ∧
  bytewiseStep 0xFFFF#16 0xFF#8 = 0x00FF#16 ∧ bytewiseStep 0xFFFF#16 0x41#8 = 0x5C0A#16

/-- R102: the shared character step, and the byte it assembles in the source's own form. -/
def Obligations.HexAcceptTakesOneCharacter : Prop :=
  (∀ (s : State) (c : Byte),
    (s.strict = true → isHex c = false → hexAccept c s = ({ s with errHex := true }, none)) ∧
    (s.strict = false ∨ isHex c = true → s.half = false →
      hexAccept c s = ({ s with hinib := nib c, half := true }, none)) ∧
    (s.strict = false ∨ isHex c = true → s.half = true →
      hexAccept c s = ({ s with lastByte := s.hinib ++ nib c, half := false, hinib := 0x0#4 },
        some (s.hinib ++ nib c)))) ∧
  ∀ c1 c : Byte, nib c1 ++ nib c = ((rawDigit c1 <<< 4) &&& 0xFF#8) ||| (rawDigit c &&& 0x0F#8)

/-- R103: HEXT, its encoding, its effect on every state and character. -/
def Obligations.HextFeedsTheTablePath : Prop :=
  byteEncoding 0x05#8 .hext ∧ hexCommand .hext tableStep ∧
  execAll [.hext 0x34#8, .hext 0x31#8] State.reset =
    .next { State.reset with lastByte := 0x41#8, crc := 0x5C0A#16 }

/-- R104: HEXB, its encoding, its effect, and that it leaves the state HEXT leaves. -/
def Obligations.HexbFeedsTheBitwisePath : Prop :=
  byteEncoding 0x06#8 .hexb ∧ hexCommand .hexb bytewiseStep ∧
  (∀ (s : State) (c : Byte), exec (.hexb c) s = exec (.hext c) s) ∧
  execAll [.hexb 0x34#8, .hexb 0x31#8] State.reset =
    .next { State.reset with lastByte := 0x41#8, crc := 0x5C0A#16 }

/-- R105: HEXN, its encoding, its effect with `crc` unchanged; the pair is shared with HEXT. -/
def Obligations.HexnLeavesTheCrc : Prop :=
  byteEncoding 0x07#8 .hexn ∧ hexCommand .hexn (fun crc _ => crc) ∧
  (∀ (s : State) (c : Byte), ∃ t u, exec (.hexn c) s = .next t ∧ exec (.hext c) s = .next u ∧
    t.half = u.half ∧ t.hinib = u.hinib ∧ t.lastByte = u.lastByte ∧ t.crc = s.crc) ∧
  execAll [.hexn 0x34#8, .hexn 0x31#8] State.reset = .next { State.reset with lastByte := 0x41#8 } ∧
  execAll [.hexn 0x34#8, .hexn 0x31#8, .hexn 0x34#8, .hexn 0x32#8] State.reset =
    .next { State.reset with lastByte := 0x42#8 }

/-- R106, R163: FLUSH, its one word, its three cases. -/
def Obligations.FlushEndsTheStream : Prop :=
  noneEncoding 0x08#8 .flush ∧
  ∀ s : State,
    (s.half = false → exec .flush s = .next s) ∧
    (s.half = true → s.strict = false →
      exec .flush s = .next { s with half := false, hinib := 0x0#4 }) ∧
    (s.half = true → s.strict = true →
      exec .flush s = .next { s with half := false, hinib := 0x0#4, errOdd := true })

/-- R142: CHECK, its encoding; MATCH is whether `~crc` is the operand, nothing else changes, the error
bits and an earlier CHECK play no part, and a byte command after it keeps MATCH. -/
def Obligations.CheckComparesTheComplement : Prop :=
  halfwordEncoding 0x09#8 .check ∧
  (∀ (s : State) (v16 : BitVec 16),
    exec (.check v16) s = .next { s with matchFlag := decide (~~~s.crc = v16) }) ∧
  (∀ (s : State) (v w : BitVec 16), execAll [.check v, .check w] s = exec (.check w) s) ∧
  (∀ (s : State) (b : Byte) (i : Instr), i = .bytet b ∨ i = .byteb b →
    ∃ t, exec i s = .next t ∧ t.matchFlag = s.matchFlag) ∧
  crc16Table [0x31#8, 0x32#8, 0x33#8, 0x34#8, 0x35#8, 0x36#8, 0x37#8, 0x38#8, 0x39#8] 0xFFFF#16 = 0x6F91#16 ∧
  ∀ s : State, s.crc = 0x6F91#16 →
    exec (.check 0x906E#16) s = .next { s with matchFlag := true } ∧
    exec (.check 0x6E90#16) s = .next { s with matchFlag := false }

/-! ### Digits, the table and the two paths -/

/-- R100: the digit value modulo 256, its low nibble, the closed form and the boundary values. -/
def Obligations.DigitValueOfEveryCharacter : Prop :=
  (∀ c : Byte,
    (0x41 ≤ c.toNat → (rawDigit c).toNat = (c.toNat + 256 - 0x37) % 256) ∧
    (c.toNat < 0x41 → (rawDigit c).toNat = (c.toNat + 256 - 0x30) % 256) ∧
    nib c = (rawDigit c).extractLsb' 0 4 ∧
    (c.toNat < 0x41 → nib c = c.extractLsb' 0 4) ∧
    (0x41 ≤ c.toNat → nib c = c.extractLsb' 0 4 + 9#4)) ∧
  nib 0x3A#8 = 0xA#4 ∧ nib 0x40#8 = 0x0#4 ∧ nib 0x47#8 = 0x0#4 ∧ nib 0x2F#8 = 0xF#4 ∧
  nib 0x00#8 = 0x0#4 ∧ nib 0xFF#8 = 0x8#4

/-- R101: the strict class, the number of codes outside it, and the digit value inside it. -/
def Obligations.StrictClassIsTheHexDigits : Prop :=
  (∀ c : Byte, isHex c = true ↔
    (0x30 ≤ c.toNat ∧ c.toNat ≤ 0x39) ∨ (0x41 ≤ c.toNat ∧ c.toNat ≤ 0x46) ∨
      (0x61 ≤ c.toNat ∧ c.toNat ≤ 0x66)) ∧
  ((List.range 256).filter fun k => !isHex (BitVec.ofNat 8 k)).length = 234 ∧
  ∀ c : Byte,
    (0x30 ≤ c.toNat → c.toNat ≤ 0x39 → (nib c).toNat = c.toNat - 0x30) ∧
    (0x41 ≤ c.toNat → c.toNat ≤ 0x46 → (nib c).toNat = c.toNat - 0x41 + 10) ∧
    (0x61 ≤ c.toNat → c.toNat ≤ 0x66 → (nib c).toNat = c.toNat - 0x61 + 10)

/-- R30, R124: the listing is the derivation at every index; the TABLE register shows it, and INIT 0 then
BYTEB computes it. -/
def Obligations.TableIsItsDerivation : Prop :=
  (∀ (i : Byte) (s : State),
    tableEntry i = eightSteps 0x0000#16 i ∧
    memRead (BitVec.ofNat 12 (0x400 + 4 * i.toNat)) 4 s = .ok ((tableEntry i).setWidth 32) ∧
    ∃ t, execAll [.init 0x0000#16, .byteb i] s = .next t ∧ t.crc = tableEntry i) ∧
  tableEntry 0x00#8 = 0x0000#16 ∧ tableEntry 0x80#8 = 0x8408#16 ∧ tableEntry 0x01#8 = 0x1189#16 ∧
  tableEntry 0xFF#8 = 0x0F78#16

/-- R31: the table is linear over XOR. -/
def Obligations.TableIsLinear : Prop :=
  ∀ i j : Byte, tableEntry (i ^^^ j) = tableEntry i ^^^ tableEntry j

/-- R122: the two paths agree at every register value and byte, and so on every sequence of commands. -/
def Obligations.PathsAgree : Prop :=
  (∀ (c : Crc) (b : Byte), tableStep c b = bytewiseStep c b) ∧
  ∀ (bs : List Byte) (s : State), ∃ t u,
    execAll (bs.map .bytet) s = .next t ∧ execAll (bs.map .byteb) s = .next u ∧ t.crc = u.crc

/-- R123: `INIT init` and one BYTET per byte compute `crc16_table`; CRC and RESULT then read it. -/
def Obligations.BytetSequenceComputesTheCrc : Prop :=
  (∀ init : Crc, crc16Table [] init = init) ∧
  (∀ (bs : List Byte) (x : Byte) (init : Crc),
    crc16Table (bs ++ [x]) init = tableStep (crc16Table bs init) x) ∧
  ∀ (s : State) (init : Crc) (bs : List Byte), ∃ t,
    execAll (.init init :: bs.map .bytet) s = .next t ∧
    memRead 0x00C#12 4 t = .ok ((crc16Table bs init).setWidth 32) ∧
    memRead 0x010#12 4 t = .ok ((~~~crc16Table bs init).setWidth 32) ∧
    memRead 0x008#12 4 t = .ok 0x00000000#32 ∧ t.strict = s.strict ∧ t.lastByte = s.lastByte

/-- R134: `INIT init` and one BYTEB per byte compute `crc16_bitwise`, which equals `crc16_table`. -/
def Obligations.BytebSequenceComputesTheCrc : Prop :=
  (∀ init : Crc, crc16Bitwise [] init = init) ∧
  (∀ (bs : List Byte) (x : Byte) (init : Crc),
    crc16Bitwise (bs ++ [x]) init = bytewiseStep (crc16Bitwise bs init) x) ∧
  (∀ (bs : List Byte) (init : Crc), crc16Bitwise bs init = crc16Table bs init) ∧
  ∀ (s : State) (init : Crc) (bs : List Byte), ∃ t,
    execAll (.init init :: bs.map .byteb) s = .next t ∧ t.crc = crc16Bitwise bs init

/-- R133: BYTEB is the eight BITB of `BITS b, 8`, the whole state alike. -/
def Obligations.BytebIsEightBitb : Prop :=
  ∀ (s : State) (b : Byte), execAll (Pseudo.bits b.toNat 8).expand s = exec (.byteb b) s

/-- R135: bits in wire order give what the byte commands give, for any whole number of bytes. -/
def Obligations.WireBitsGiveTheByteResult : Prop :=
  ∀ (s : State) (bs : List Byte),
    execAll ((wireBits bs).map .bitb) s = execAll (bs.map .byteb) s ∧
    execAll ((wireBits bs).map .bitb) s = execAll (bs.map .bytet) s

/-- R67, R142, and the residue of 95_test_vectors.md section 2.5: the two bytes of the final checksum in
wire order are what CHECKLE accepts, and fed to the CRC they leave 0xF0B8 after any message. -/
def Obligations.AppendedChecksumLeavesTheResidue : Prop :=
  (∀ (s : State) (f0 f1 : Byte),
    execAll (Pseudo.checkle f0 f1).expand s =
      .next { s with matchFlag := decide (fieldBytes (finalChecksum s) = [f0, f1]) }) ∧
  ∀ (s : State) (init : Crc) (data : List Byte), ∃ t,
    execAll (.init init :: (data ++ fieldBytes (~~~crc16Table data init)).map .bytet) s = .next t ∧
    t.crc = 0xF0B8#16

/-! ### The decoder over strings and across commands -/

/-- R107: from no pending pair in permissive mode, HEXN over a string and FLUSH set LASTBYTE in turn to
the bytes of `hex_decode` (its formula, k by k) and leave HALF = 0; HEXT and HEXB apply their path to those bytes in order. -/
def Obligations.HexStringIsDecodedInOrder : Prop :=
  ∀ (s : State) (cs : List Byte), s.half = false → s.pairConsistent → s.strict = false →
    (hexDecode cs).length = cs.length / 2 ∧
    (∀ k, ∀ h : k < (hexDecode cs).length, (hexDecode cs)[k] =
      ((rawDigit (cs.getD (2 * k) 0x00#8) <<< 4) &&& 0xFF#8) |||
        (rawDigit (cs.getD (2 * k + 1) 0x00#8) &&& 0x0F#8)) ∧
    (∀ k, ∀ h : k < (hexDecode cs).length,
      execAll ((cs.take (2 * k + 2)).map .hexn) s = .next { s with lastByte := (hexDecode cs)[k] }) ∧
    execAll (Pseudo.hexstrN cs).expand s =
      .next { s with lastByte := (hexDecode cs).getLastD s.lastByte } ∧
    execAll (Pseudo.hexstrT cs).expand s =
      .next { s with
        lastByte := (hexDecode cs).getLastD s.lastByte
        crc := crc16Table (hexDecode cs) s.crc } ∧
    execAll (Pseudo.hexstrB cs).expand s =
      .next { s with
        lastByte := (hexDecode cs).getLastD s.lastByte
        crc := crc16Bitwise (hexDecode cs) s.crc }

/-- R108, its four clauses. -/
def Obligations.MixedCommandsShareThePair : Prop :=
  (∀ (s : State) (c1 c : Byte) (first : Byte → Instr),
    first = .hext ∨ first = .hexb ∨ first = .hexn → s.half = false → s.strict = false →
    execAll [first c1, .hext c] s = .next { s with
      lastByte := nib c1 ++ nib c, hinib := 0x0#4, crc := tableStep s.crc (nib c1 ++ nib c) } ∧
    execAll [first c1, .hexb c] s = .next { s with
      lastByte := nib c1 ++ nib c, hinib := 0x0#4, crc := bytewiseStep s.crc (nib c1 ++ nib c) } ∧
    execAll [first c1, .hexn c] s = .next { s with lastByte := nib c1 ++ nib c, hinib := 0x0#4 }) ∧
  (∀ (s : State) (i : Instr) (b : Byte) (d : BitVec 1) (v : BitVec 16),
    i = .bytet b ∨ i = .byteb b ∨ i = .bitb d ∨ i = .check v ∨ i = .nop →
    ∃ t, exec i s = .next t ∧ t.half = s.half ∧ t.hinib = s.hinib) ∧
  (∀ (s : State) (v : BitVec 16), ∃ t, exec (.init v) s = .next t ∧
    t.half = false ∧ t.hinib = 0x0#4 ∧ t.errOdd = false) ∧
  ∀ (s : State) (c1 c : Byte), s.half = false → s.strict = false →
    ∃ t, exec (.hexn c1) s = .next t ∧ t.hinib = nib c1 ∧
      (isHex c = true → exec (.hexn c) { t with strict := true } =
        .next { s with strict := true, lastByte := nib c1 ++ nib c, hinib := 0x0#4 }) ∧
      (isHex c = false → exec (.hexn c) { t with strict := true } =
        .next { t with strict := true, errHex := true })

/-- R185, R108 (b): a pending half-pair outlives any number of byte commands, whose bytes enter `crc` before
its own; the next hex command completes it. -/
def Obligations.PendingPairOutlivesByteCommands : Prop :=
  ∀ (s : State) (c1 c : Byte) (bs : List Byte), s.half = false → s.strict = false →
    execAll (.hexn c1 :: (bs.map .bytet ++ [.hext c])) s = .next { s with
      lastByte := nib c1 ++ nib c
      hinib := 0x0#4
      crc := tableStep (crc16Table bs s.crc) (nib c1 ++ nib c) }

/-- R22, D26: STRICT is read by the hex commands and FLUSH and by no other command, and on hex digits the
hex commands do the same in both modes. -/
def Obligations.StrictMattersOnlyToTheDecoder : Prop :=
  (∀ (s : State) (i : Instr) (b : Bool), (∀ c, i ≠ .hext c ∧ i ≠ .hexb c ∧ i ≠ .hexn c) → i ≠ .flush →
    ∃ t, exec i s = .next t ∧ t.strict = s.strict ∧
      exec i { s with strict := b } = .next { t with strict := b }) ∧
  ∀ (s : State) (i : Instr) (b : Bool) (c : Byte), isHex c = true →
    i = .hext c ∨ i = .hexb c ∨ i = .hexn c →
    ∃ t, exec i s = .next t ∧ t.errHex = s.errHex ∧
      exec i { s with strict := b } = .next { t with strict := b }

/-! ### Errors -/

/-- R24: the sticky error bits never block a command: whatever they hold, every command leaves the same
state but for those bits. -/
def Obligations.ErrorBitsNeverBlockACommand : Prop :=
  ∀ (s : State) (i : Instr) (h o c : Bool), ∃ t u, exec i s = .next t ∧
    exec i (withErrors h o c s) = .next u ∧ withErrors false false false t = withErrors false false false u

/-- R168: a set error bit stays set over every access but a write of INIT to CMD, and INIT clears all three
together; raising a condition again changes nothing. -/
def Obligations.OnlyInitClearsErrors : Prop :=
  (∀ (a : Access) (s t : State), serveAccess a s = .next t →
    (∀ w v, a = .write 0x000#12 4 w → decode w ≠ .ok (.init v)) →
    (s.errHex = true → t.errHex = true) ∧ (s.errOdd = true → t.errOdd = true) ∧
      (s.errCmd = true → t.errCmd = true)) ∧
  (∀ (s : State) (v : BitVec 16), ∃ t, exec (.init v) s = .next t ∧ t.noErrors) ∧
  ∀ (s : State) (c : Condition), raise c (raise c s) = raise c s

/-- R162, R163, R164: over a step each error bit rises exactly for its cause. What the step takes is the head of
the tape (assumption log 1); that a step over a rejected access goes on is the model's reading (log 3). -/
def Obligations.ErrorBitsRiseForTheirCause : Prop :=
  ∀ s : State, ∃ t, step s = .next t ∧
    (rises s.errHex t.errHex ↔ s.errHex = false ∧ s.strict = true ∧ ∃ c, isHex c = false ∧
      (s.nextCommand = some (.hext c) ∨ s.nextCommand = some (.hexb c) ∨ s.nextCommand = some (.hexn c))) ∧
    (rises s.errOdd t.errOdd ↔
      s.errOdd = false ∧ s.strict = true ∧ s.half = true ∧ s.nextCommand = some .flush) ∧
    (rises s.errCmd t.errCmd ↔ s.errCmd = false ∧ s.resetPin = false ∧ ∃ w rest,
      s.port = .access (.write 0x000#12 4 w) :: rest ∧ illegalWord w)

/-- R166: one access raises at most one condition: a BusError none other, an illegal command no hex condition,
and never both hex conditions. -/
def Obligations.OneConditionPerStep : Prop :=
  ∀ (a : Access) (s t : State), serveAccess a s = .next t →
    (t.response = some .busError → t = { s with response := some .busError }) ∧
    ¬ (rises s.errCmd t.errCmd ∧ (rises s.errHex t.errHex ∨ rises s.errOdd t.errOdd)) ∧
    ¬ (rises s.errHex t.errHex ∧ rises s.errOdd t.errOdd)

/-- R160 with the rejections of R51, R57, R58 written out: the access answers the error response, returns no
data and changes no state of the block. -/
def Obligations.RejectedAccessChangesNothing : Prop :=
  ∀ (s : State) (off : Offset) (n : Nat) (v : Word),
    (n ≠ 4 ∨ ¬ readable off → memRead off n s = .error (.busError off) ∧
      serveAccess (.read off n) s = .next { s with response := some .busError }) ∧
    (n ≠ 4 ∨ (off ≠ 0x000#12 ∧ off ≠ 0x004#12) → resolveWrite off n = .error (.busError off) ∧
      serveAccess (.write off n v) s = .next { s with response := some .busError })

/-! ### The register window -/

/-- R53: what each offset reads, in every state. -/
def Obligations.ReadReturnsTheRegister : Prop :=
  ∀ s : State,
    memRead 0x004#12 4 s = .ok ((BitVec.ofBool s.strict).setWidth 32) ∧
    memRead 0x008#12 4 s = .ok ((s.hinib ++ 0b000#3 ++ BitVec.ofBool s.matchFlag ++ BitVec.ofBool s.half ++
      BitVec.ofBool s.errCmd ++ BitVec.ofBool s.errOdd ++ BitVec.ofBool s.errHex).setWidth 32) ∧
    memRead 0x00C#12 4 s = .ok (s.crc.setWidth 32) ∧
    memRead 0x010#12 4 s = .ok ((~~~s.crc).setWidth 32) ∧
    memRead 0x014#12 4 s = .ok (s.lastByte.setWidth 32) ∧
    memRead 0x018#12 4 s = .ok 0xFFFF8408#32 ∧
    (∀ off : Offset, off.toNat % 4 = 0 → 0x400 ≤ off.toNat → off.toNat ≤ 0x7FC →
      memRead off 4 s = .ok ((tableEntry (off.extractLsb' 2 8)).setWidth 32)) ∧
    ∀ (off : Offset) (n : Nat), n ≠ 4 ∨ ¬ readable off → memRead off n s = .error (.busError off)

/-- R54: a read changes nothing but the answer, and a second read of the offset answers the same. -/
def Obligations.ReadsHaveNoSideEffect : Prop :=
  ∀ (s : State) (off : Offset) (n : Nat), ∃ r,
    serveAccess (.read off n) s = .next { s with response := some r } ∧
    serveAccess (.read off n) { s with response := some r } = .next { s with response := some r } ∧
    (∀ v, r = .data v ↔ memRead off n s = .ok v) ∧
    (r = .busError ↔ memRead off n s = .error (.busError off))

/-- R23, R66: each STATUS bit is its field, and every bit the map does not give reads 0. -/
def Obligations.UnusedRegisterBitsReadZero : Prop :=
  ∀ s : State,
    ((statusWord s).getLsbD 0 = s.errHex ∧ (statusWord s).getLsbD 1 = s.errOdd ∧
      (statusWord s).getLsbD 2 = s.errCmd ∧ (statusWord s).getLsbD 3 = s.half ∧
      (statusWord s).getLsbD 4 = s.matchFlag ∧ (statusWord s).extractLsb' 5 3 = 0#3 ∧
      (statusWord s).extractLsb' 8 4 = s.hinib ∧ (statusWord s).extractLsb' 12 20 = 0#20) ∧
    (readReg .ctrl s).extractLsb' 1 31 = 0#31 ∧ (readReg .crc s).extractLsb' 16 16 = 0#16 ∧
    (readReg .result s).extractLsb' 16 16 = 0#16 ∧ (readReg .lastByte s).extractLsb' 8 24 = 0#24 ∧
    ∀ i : Byte, (readReg (.table i) s).extractLsb' 16 16 = 0#16

/-- R56: a write to CTRL sets STRICT from bit 0, discards the rest and changes nothing else; CTRL then reads
that bit (R22). -/
def Obligations.CtrlWriteSetsStrictOnly : Prop :=
  ∀ (s : State) (v : Word), ∃ t,
    serveAccess (.write 0x004#12 4 v) s = .next t ∧ t = { s with response := some .ok, strict := v.getLsbD 0 } ∧
      memRead 0x004#12 4 t = .ok ((v.extractLsb' 0 1).setWidth 32)

/-- R6, R50: the window is 4096 bytes at a 4096-byte aligned BASE, whatever it is: its addresses and its
offsets correspond, and no other address is the block's. -/
def Obligations.WindowAddressesAreItsOffsets : Prop :=
  Config.base % 4096 = 0 ∧
  (∀ off : Offset, windowOffset (busAddress off) = some off) ∧
  ∀ (addr : Nat) (off : Offset), windowOffset addr = some off ↔ addr = busAddress off

/-! ### The machine as a whole -/

/-- R59, R60: the step takes the access the tape holds next and does exactly what serving it does (the tape is
the model's, assumption log 1). -/
def Obligations.StepServesTheNextAccess : Prop :=
  ∀ (s : State) (a : Access) (rest : List Input), s.resetPin = false → s.port = .access a :: rest →
    step s = serveAccess a { s with port := rest }

/-- R55, R80: the step that takes a command write runs exactly the decoded command, on the state with the
write taken from the tape and answered (assumption logs 1, 2), and an illegal word only sets ERR_CMD. -/
def Obligations.StepRunsTheDecodedCommand : Prop :=
  ∀ (s : State) (w : Word) (rest : List Input), s.resetPin = false →
    s.port = .access (.write 0x000#12 4 w) :: rest →
    (∀ i, decode w = .ok i → step s = exec i { s with port := rest, response := some .ok }) ∧
    (∀ e, decode w = .error e →
      step s = .next { s with port := rest, response := some .ok, errCmd := true })

/-- The opcode table's numbering, and how a program comes to run (assumption log 1, the model's choice): a
word the table's numbering decodes to a command is what the very next step executes once it is presented. -/
def Obligations.PresentedWordRunsNext : Prop :=
  ∀ (s : State) (nbits w : Nat) (i : Instr), decodeTableWord nbits w = some i →
    step (s.withFetchWord nbits w) = exec i { s with resetPin := false, response := some .ok }

/-- R55, R60: command words presented one after another on the tape (assumption log 1) are executed once each, in that order: running as many
steps is executing the commands in sequence. -/
def Obligations.CommandQueueRunsInOrder : Prop :=
  ∀ (is : List Instr) (s : State) (rest : List Input), is ≠ [] → s.resetPin = false →
    s.port = is.map (fun i => .access (.write 0x000#12 4 (encode i))) ++ rest →
    runSteps is.length s = execAll is { s with port := rest, response := some .ok }

/-- R59, R188: with nothing presented the block takes no step of its own (that such a step leaves the last answer
standing is the model's choice, assumption log 2). -/
def Obligations.IdleStepChangesNothing : Prop :=
  ∀ (s : State) (k : Nat), s.port = [] → runSteps k s = .next s

/-- R189, "Every command terminates: none waits for anything", with R59, R160, R167: from every state any number
of steps is taken, never a fault or a refusal. That a rejected access is answered and the machine goes on, though
93_implementation_defined.md R-5 gives it the treatment `fault`, is the model's reading of R160 (assumption
log 3, DEDUCED). -/
def Obligations.MachineNeverStops : Prop :=
  ∀ (s : State) (k : Nat), ∃ t, runSteps k s = .next t

/-- R33, R180: the values of reset; asserting reset writes them in any state; while it is asserted no access is
accepted; the first access after it sees the reset state. That an access arriving in between is dropped without
an answer is the model's choice (assumption log 4). -/
def Obligations.ResetWritesEveryElement : Prop :=
  (State.reset.crc = 0xFFFF#16 ∧ State.reset.strict = false ∧ State.reset.errHex = false ∧
    State.reset.errOdd = false ∧ State.reset.errCmd = false ∧ State.reset.half = false ∧
    State.reset.hinib = 0x0#4 ∧ State.reset.matchFlag = false ∧ State.reset.lastByte = 0x00#8) ∧
  (∀ (s : State) (rest : List Input), s.port = .reset true :: rest →
    step s = .next { State.reset with port := rest, resetPin := true }) ∧
  (∀ (s : State) (a : Access) (rest : List Input), s.resetPin = true → s.port = .access a :: rest →
    step s = .next { s with port := rest, response := none }) ∧
  ∀ (s : State) (as : List Access) (rest : List Input),
    s.port = .reset true :: as.map .access ++ .reset false :: rest →
    runSteps (as.length + 2) s = .next { State.reset with port := rest }

/-- The invariant holds right after reset (R25, R180). -/
def Obligations.ResetStateMeetsInvariant : Prop :=
  State.reset.Inv ∧ State.reset.noErrors

/-- R25, R180 (with the model's reset input, assumption log 4): every step keeps "HALF = 0 implies HINIB = 0", and the block stays at its reset values
while reset is asserted. -/
def Obligations.StepKeepsInvariant : Prop :=
  ∀ s t : State, s.Inv → step s = .next t → t.Inv

/-- R33, its column "written by" (with R20, R22, R26, R27): an element that differs after a step was
written by one of its writers. -/
def Obligations.ElementsHaveOnlyTheirWriters : Prop :=
  ∀ s t : State, step s = .next t → ¬ s.nextIsReset →
    (t.crc ≠ s.crc → ∃ i, s.nextCommand = some i ∧
      ((∃ v, i = .init v) ∨ (∃ b, i = .bytet b ∨ i = .byteb b) ∨ (∃ d, i = .bitb d) ∨
        (s.half = true ∧ ∃ c, i = .hext c ∨ i = .hexb c))) ∧
    (t.strict ≠ s.strict → ∃ v, s.nextWritesCtrl v ∧ t.strict = v.getLsbD 0) ∧
    (t.half ≠ s.half ∨ t.hinib ≠ s.hinib → ∃ i, s.nextCommand = some i ∧
      ((∃ c, i = .hext c ∨ i = .hexb c ∨ i = .hexn c) ∨ i = .flush ∨ ∃ v, i = .init v)) ∧
    (t.matchFlag ≠ s.matchFlag → ∃ i v, s.nextCommand = some i ∧ (i = .check v ∨ i = .init v)) ∧
    (t.lastByte ≠ s.lastByte → s.half = true ∧ ∃ i c, s.nextCommand = some i ∧
      (i = .hext c ∨ i = .hexb c ∨ i = .hexn c))

/-- The frames of the ten commands, through the window: each completes, keeps STRICT and the
surroundings, and every offset outside its list reads as before at every width (R20 to R29, R33). -/
def Obligations.CommandsKeepTheRestOfTheWindow : Prop :=
  framedBy .nop [] ∧
  (∀ v, framedBy (.init v) [0x008#12, 0x00C#12, 0x010#12]) ∧
  (∀ b, framedBy (.bytet b) [0x00C#12, 0x010#12]) ∧
  (∀ b, framedBy (.byteb b) [0x00C#12, 0x010#12]) ∧
  (∀ d, framedBy (.bitb d) [0x00C#12, 0x010#12]) ∧
  (∀ c, framedBy (.hext c) [0x008#12, 0x00C#12, 0x010#12, 0x014#12]) ∧
  (∀ c, framedBy (.hexb c) [0x008#12, 0x00C#12, 0x010#12, 0x014#12]) ∧
  (∀ c, framedBy (.hexn c) [0x008#12, 0x014#12]) ∧
  framedBy .flush [0x008#12] ∧
  ∀ v, framedBy (.check v) [0x008#12]

/-- R125 for BYTET, and by R130 for BITB and R131, R132 for BYTEB: the CRC commands are functions of `crc` and
their operand alone: two states with the same `crc`,
whatever else they hold, get the same `crc` from them. -/
def Obligations.CrcCommandsDependOnCrcAlone : Prop :=
  ∀ (s u : State) (i : Instr) (b : Byte) (d : BitVec 1), s.crc = u.crc →
    i = .bytet b ∨ i = .byteb b ∨ i = .bitb d →
    ∃ t x, exec i s = .next t ∧ exec i u = .next x ∧ t.crc = x.crc

end
end

