-- ==== Sys2Proof/Laws/Encoding.lean ====
section
/-! SUPPORT. The fields of a word built from fields, and the operand decoders on the operands they admit. -/

namespace Sys2Proof

theorem opField_append (op rsv : BitVec 8) (imm : BitVec 16) : opField (op ++ rsv ++ imm) = op := by
  ext k hk
  simp [opField]
  grind

theorem rsvField_append (op rsv : BitVec 8) (imm : BitVec 16) : rsvField (op ++ rsv ++ imm) = rsv := by
  ext k hk
  simp [rsvField]
  grind

theorem immField_append (op rsv : BitVec 8) (imm : BitVec 16) : immField (op ++ rsv ++ imm) = imm := by
  ext k hk
  simp [immField]
  grind

/-- A word is its three fields (R80). -/
theorem word_of_fields (w : Word) : opField w ++ rsvField w ++ immField w = w := by
  ext k hk
  simp [opField, rsvField, immField]
  grind

/-- Two operand fields of IMM, as R82 takes them. -/
theorem byte_operand (b : Byte) :
    ((0x00#8 ++ b : BitVec 16).extractLsb' 8 8 = 0x00#8) ∧ ((0x00#8 ++ b : BitVec 16).extractLsb' 0 8 = b) := by
  constructor <;> ext k hk <;> simp <;> grind

theorem bit_operand (d : BitVec 1) :
    ((0#15 ++ d : BitVec 16).extractLsb' 1 15 = 0#15) ∧ ((0#15 ++ d : BitVec 16).extractLsb' 0 1 = d) := by
  constructor <;> ext k hk <;> simp <;> grind

theorem decodeByte_operand (b : Byte) (mk : Byte → Instr) : decodeByte (0x00#8 ++ b) mk = .ok (mk b) := by
  rw [decodeByte, if_pos (byte_operand b).1, (byte_operand b).2]

theorem decodeBit_operand (d : BitVec 1) (mk : BitVec 1 → Instr) : decodeBit (0#15 ++ d) mk = .ok (mk d) := by
  rw [decodeBit, if_pos (bit_operand d).1, (bit_operand d).2]

/-- What the byte operand's decoder answers: a command of that operand, or illegal. -/
theorem decodeByte_ok {imm : BitVec 16} {mk : Byte → Instr} {i : Instr} (h : decodeByte imm mk = .ok i) :
    imm.extractLsb' 8 8 = 0x00#8 ∧ i = mk (imm.extractLsb' 0 8) := by
  unfold decodeByte at h
  split at h
  · exact ⟨‹_›, by simpa using h.symm⟩
  · simp at h

theorem decodeBit_ok {imm : BitVec 16} {mk : BitVec 1 → Instr} {i : Instr} (h : decodeBit imm mk = .ok i) :
    imm.extractLsb' 1 15 = 0#15 ∧ i = mk (imm.extractLsb' 0 1) := by
  unfold decodeBit at h
  split at h
  · exact ⟨‹_›, by simpa using h.symm⟩
  · simp at h

theorem decodeNone_ok {imm : BitVec 16} {j i : Instr} (h : decodeNone imm j = .ok i) :
    imm = 0x0000#16 ∧ i = j := by
  unfold decodeNone at h
  split at h
  · exact ⟨‹_›, by simpa using h.symm⟩
  · simp at h

/-- Decoding a word whose RSV is zero is a choice on OP (R87). -/
theorem decode_commandWord (op : BitVec 8) (imm : BitVec 16) :
    decode (commandWord op imm) =
      if op = 0x00#8 then decodeNone imm .nop
      else if op = 0x01#8 then .ok (.init imm)
      else if op = 0x02#8 then decodeByte imm .bytet
      else if op = 0x03#8 then decodeByte imm .byteb
      else if op = 0x04#8 then decodeBit imm .bitb
      else if op = 0x05#8 then decodeByte imm .hext
      else if op = 0x06#8 then decodeByte imm .hexb
      else if op = 0x07#8 then decodeByte imm .hexn
      else if op = 0x08#8 then decodeNone imm .flush
      else if op = 0x09#8 then .ok (.check imm)
      else .error .unknownOpcode := by
  simp only [decode, commandWord, opField_append, rsvField_append, immField_append]
  simp

/-- A word whose RSV is zero is built from its other two fields (R80). -/
theorem commandWord_of_fields {w : Word} (h : rsvField w = 0x00#8) :
    commandWord (opField w) (immField w) = w := by
  have hw := word_of_fields w
  rw [h] at hw
  exact hw

/-- A word with a non-zero RSV is illegal (R87). -/
theorem decode_reserved {w : Word} (h : rsvField w ≠ 0x00#8) : decode w = .error .reservedField := by
  simp [decode, h]

/-- IMM is its operand byte under its upper byte. -/
theorem imm_of_byte {imm : BitVec 16} (h : imm.extractLsb' 8 8 = 0x00#8) :
    0x00#8 ++ imm.extractLsb' 0 8 = imm := by
  have : (imm.extractLsb' 8 8 ++ imm.extractLsb' 0 8 : BitVec 16) = imm := by
    ext k hk
    simp
    grind
  rwa [h] at this

/-- IMM is its operand bit under its other bits. -/
theorem imm_of_bit {imm : BitVec 16} (h : imm.extractLsb' 1 15 = 0#15) :
    0#15 ++ imm.extractLsb' 0 1 = imm := by
  have : (imm.extractLsb' 1 15 ++ imm.extractLsb' 0 1 : BitVec 16) = imm := by
    ext k hk
    simp
    grind
  rwa [h] at this

/-- Every command as its line is in range: the operand types are the ranges of R90. -/
theorem wellFormed_of_width (i : Instr) : i.wellFormed = true := by
  cases i <;> simp [Instr.wellFormed, Instr.toSource, SourceCommand.wellFormed] <;> omega

end Sys2Proof
end

