-- ==== Sys2Proof/Laws/State.lean ====
section
/-! SUPPORT. One lemma per field per named update of the state. -/

namespace Sys2Proof.Machine

@[simp] theorem clearErrors_crc (s : State) : (clearErrors s).crc = s.crc := rfl
@[simp] theorem clearErrors_strict (s : State) : (clearErrors s).strict = s.strict := rfl
@[simp] theorem clearErrors_errHex (s : State) : (clearErrors s).errHex = false := rfl
@[simp] theorem clearErrors_errOdd (s : State) : (clearErrors s).errOdd = false := rfl
@[simp] theorem clearErrors_errCmd (s : State) : (clearErrors s).errCmd = false := rfl
@[simp] theorem clearErrors_half (s : State) : (clearErrors s).half = s.half := rfl
@[simp] theorem clearErrors_matchFlag (s : State) : (clearErrors s).matchFlag = s.matchFlag := rfl
@[simp] theorem clearErrors_hinib (s : State) : (clearErrors s).hinib = s.hinib := rfl
@[simp] theorem clearErrors_lastByte (s : State) : (clearErrors s).lastByte = s.lastByte := rfl
@[simp] theorem clearErrors_port (s : State) : (clearErrors s).port = s.port := rfl
@[simp] theorem clearErrors_resetPin (s : State) : (clearErrors s).resetPin = s.resetPin := rfl
@[simp] theorem clearErrors_response (s : State) : (clearErrors s).response = s.response := rfl

@[simp] theorem loadCrc_crc (v : Crc) (s : State) : (loadCrc v s).crc = v := rfl
@[simp] theorem loadCrc_strict (v : Crc) (s : State) : (loadCrc v s).strict = s.strict := rfl
@[simp] theorem loadCrc_errHex (v : Crc) (s : State) : (loadCrc v s).errHex = s.errHex := rfl
@[simp] theorem loadCrc_errOdd (v : Crc) (s : State) : (loadCrc v s).errOdd = s.errOdd := rfl
@[simp] theorem loadCrc_errCmd (v : Crc) (s : State) : (loadCrc v s).errCmd = s.errCmd := rfl
@[simp] theorem loadCrc_half (v : Crc) (s : State) : (loadCrc v s).half = s.half := rfl
@[simp] theorem loadCrc_matchFlag (v : Crc) (s : State) : (loadCrc v s).matchFlag = s.matchFlag := rfl
@[simp] theorem loadCrc_hinib (v : Crc) (s : State) : (loadCrc v s).hinib = s.hinib := rfl
@[simp] theorem loadCrc_lastByte (v : Crc) (s : State) : (loadCrc v s).lastByte = s.lastByte := rfl
@[simp] theorem loadCrc_port (v : Crc) (s : State) : (loadCrc v s).port = s.port := rfl
@[simp] theorem loadCrc_resetPin (v : Crc) (s : State) : (loadCrc v s).resetPin = s.resetPin := rfl
@[simp] theorem loadCrc_response (v : Crc) (s : State) : (loadCrc v s).response = s.response := rfl

@[simp] theorem writeStrict_crc (b : Bool) (s : State) : (writeStrict b s).crc = s.crc := rfl
@[simp] theorem writeStrict_strict (b : Bool) (s : State) : (writeStrict b s).strict = b := rfl
@[simp] theorem writeStrict_errHex (b : Bool) (s : State) : (writeStrict b s).errHex = s.errHex := rfl
@[simp] theorem writeStrict_errOdd (b : Bool) (s : State) : (writeStrict b s).errOdd = s.errOdd := rfl
@[simp] theorem writeStrict_errCmd (b : Bool) (s : State) : (writeStrict b s).errCmd = s.errCmd := rfl
@[simp] theorem writeStrict_half (b : Bool) (s : State) : (writeStrict b s).half = s.half := rfl
@[simp] theorem writeStrict_matchFlag (b : Bool) (s : State) : (writeStrict b s).matchFlag = s.matchFlag := rfl
@[simp] theorem writeStrict_hinib (b : Bool) (s : State) : (writeStrict b s).hinib = s.hinib := rfl
@[simp] theorem writeStrict_lastByte (b : Bool) (s : State) : (writeStrict b s).lastByte = s.lastByte := rfl
@[simp] theorem writeStrict_port (b : Bool) (s : State) : (writeStrict b s).port = s.port := rfl
@[simp] theorem writeStrict_resetPin (b : Bool) (s : State) : (writeStrict b s).resetPin = s.resetPin := rfl
@[simp] theorem writeStrict_response (b : Bool) (s : State) : (writeStrict b s).response = s.response := rfl

@[simp] theorem writeMatch_crc (b : Bool) (s : State) : (writeMatch b s).crc = s.crc := rfl
@[simp] theorem writeMatch_strict (b : Bool) (s : State) : (writeMatch b s).strict = s.strict := rfl
@[simp] theorem writeMatch_errHex (b : Bool) (s : State) : (writeMatch b s).errHex = s.errHex := rfl
@[simp] theorem writeMatch_errOdd (b : Bool) (s : State) : (writeMatch b s).errOdd = s.errOdd := rfl
@[simp] theorem writeMatch_errCmd (b : Bool) (s : State) : (writeMatch b s).errCmd = s.errCmd := rfl
@[simp] theorem writeMatch_half (b : Bool) (s : State) : (writeMatch b s).half = s.half := rfl
@[simp] theorem writeMatch_matchFlag (b : Bool) (s : State) : (writeMatch b s).matchFlag = b := rfl
@[simp] theorem writeMatch_hinib (b : Bool) (s : State) : (writeMatch b s).hinib = s.hinib := rfl
@[simp] theorem writeMatch_lastByte (b : Bool) (s : State) : (writeMatch b s).lastByte = s.lastByte := rfl
@[simp] theorem writeMatch_port (b : Bool) (s : State) : (writeMatch b s).port = s.port := rfl
@[simp] theorem writeMatch_resetPin (b : Bool) (s : State) : (writeMatch b s).resetPin = s.resetPin := rfl
@[simp] theorem writeMatch_response (b : Bool) (s : State) : (writeMatch b s).response = s.response := rfl

@[simp] theorem holdNibble_crc (n : Nibble) (s : State) : (holdNibble n s).crc = s.crc := rfl
@[simp] theorem holdNibble_strict (n : Nibble) (s : State) : (holdNibble n s).strict = s.strict := rfl
@[simp] theorem holdNibble_errHex (n : Nibble) (s : State) : (holdNibble n s).errHex = s.errHex := rfl
@[simp] theorem holdNibble_errOdd (n : Nibble) (s : State) : (holdNibble n s).errOdd = s.errOdd := rfl
@[simp] theorem holdNibble_errCmd (n : Nibble) (s : State) : (holdNibble n s).errCmd = s.errCmd := rfl
@[simp] theorem holdNibble_half (n : Nibble) (s : State) : (holdNibble n s).half = true := rfl
@[simp] theorem holdNibble_matchFlag (n : Nibble) (s : State) : (holdNibble n s).matchFlag = s.matchFlag := rfl
@[simp] theorem holdNibble_hinib (n : Nibble) (s : State) : (holdNibble n s).hinib = n := rfl
@[simp] theorem holdNibble_lastByte (n : Nibble) (s : State) : (holdNibble n s).lastByte = s.lastByte := rfl
@[simp] theorem holdNibble_port (n : Nibble) (s : State) : (holdNibble n s).port = s.port := rfl
@[simp] theorem holdNibble_resetPin (n : Nibble) (s : State) : (holdNibble n s).resetPin = s.resetPin := rfl
@[simp] theorem holdNibble_response (n : Nibble) (s : State) : (holdNibble n s).response = s.response := rfl

@[simp] theorem dropNibble_crc (s : State) : (dropNibble s).crc = s.crc := rfl
@[simp] theorem dropNibble_strict (s : State) : (dropNibble s).strict = s.strict := rfl
@[simp] theorem dropNibble_errHex (s : State) : (dropNibble s).errHex = s.errHex := rfl
@[simp] theorem dropNibble_errOdd (s : State) : (dropNibble s).errOdd = s.errOdd := rfl
@[simp] theorem dropNibble_errCmd (s : State) : (dropNibble s).errCmd = s.errCmd := rfl
@[simp] theorem dropNibble_half (s : State) : (dropNibble s).half = false := rfl
@[simp] theorem dropNibble_matchFlag (s : State) : (dropNibble s).matchFlag = s.matchFlag := rfl
@[simp] theorem dropNibble_hinib (s : State) : (dropNibble s).hinib = 0x0#4 := rfl
@[simp] theorem dropNibble_lastByte (s : State) : (dropNibble s).lastByte = s.lastByte := rfl
@[simp] theorem dropNibble_port (s : State) : (dropNibble s).port = s.port := rfl
@[simp] theorem dropNibble_resetPin (s : State) : (dropNibble s).resetPin = s.resetPin := rfl
@[simp] theorem dropNibble_response (s : State) : (dropNibble s).response = s.response := rfl

@[simp] theorem completePair_crc (b : Byte) (s : State) : (completePair b s).crc = s.crc := rfl
@[simp] theorem completePair_strict (b : Byte) (s : State) : (completePair b s).strict = s.strict := rfl
@[simp] theorem completePair_errHex (b : Byte) (s : State) : (completePair b s).errHex = s.errHex := rfl
@[simp] theorem completePair_errOdd (b : Byte) (s : State) : (completePair b s).errOdd = s.errOdd := rfl
@[simp] theorem completePair_errCmd (b : Byte) (s : State) : (completePair b s).errCmd = s.errCmd := rfl
@[simp] theorem completePair_half (b : Byte) (s : State) : (completePair b s).half = false := rfl
@[simp] theorem completePair_matchFlag (b : Byte) (s : State) : (completePair b s).matchFlag = s.matchFlag := rfl
@[simp] theorem completePair_hinib (b : Byte) (s : State) : (completePair b s).hinib = 0x0#4 := rfl
@[simp] theorem completePair_lastByte (b : Byte) (s : State) : (completePair b s).lastByte = b := rfl
@[simp] theorem completePair_port (b : Byte) (s : State) : (completePair b s).port = s.port := rfl
@[simp] theorem completePair_resetPin (b : Byte) (s : State) : (completePair b s).resetPin = s.resetPin := rfl
@[simp] theorem completePair_response (b : Byte) (s : State) : (completePair b s).response = s.response := rfl

@[simp] theorem respond_crc (r : Option Response) (s : State) : (respond r s).crc = s.crc := rfl
@[simp] theorem respond_strict (r : Option Response) (s : State) : (respond r s).strict = s.strict := rfl
@[simp] theorem respond_errHex (r : Option Response) (s : State) : (respond r s).errHex = s.errHex := rfl
@[simp] theorem respond_errOdd (r : Option Response) (s : State) : (respond r s).errOdd = s.errOdd := rfl
@[simp] theorem respond_errCmd (r : Option Response) (s : State) : (respond r s).errCmd = s.errCmd := rfl
@[simp] theorem respond_half (r : Option Response) (s : State) : (respond r s).half = s.half := rfl
@[simp] theorem respond_matchFlag (r : Option Response) (s : State) : (respond r s).matchFlag = s.matchFlag := rfl
@[simp] theorem respond_hinib (r : Option Response) (s : State) : (respond r s).hinib = s.hinib := rfl
@[simp] theorem respond_lastByte (r : Option Response) (s : State) : (respond r s).lastByte = s.lastByte := rfl
@[simp] theorem respond_port (r : Option Response) (s : State) : (respond r s).port = s.port := rfl
@[simp] theorem respond_resetPin (r : Option Response) (s : State) : (respond r s).resetPin = s.resetPin := rfl
@[simp] theorem respond_response (r : Option Response) (s : State) : (respond r s).response = r := rfl

@[simp] theorem raise_crc (c : Condition) (s : State) : (raise c s).crc = s.crc := by cases c <;> rfl
@[simp] theorem raise_strict (c : Condition) (s : State) : (raise c s).strict = s.strict := by cases c <;> rfl
@[simp] theorem raise_errHex (c : Condition) (s : State) :
    (raise c s).errHex = (s.errHex || c == .invalidHexDigit) := by
  cases c <;> simp [raise]
@[simp] theorem raise_errOdd (c : Condition) (s : State) :
    (raise c s).errOdd = (s.errOdd || c == .oddLengthInput) := by
  cases c <;> simp [raise]
@[simp] theorem raise_errCmd (c : Condition) (s : State) :
    (raise c s).errCmd = (s.errCmd || c == .illegalCommand) := by
  cases c <;> simp [raise]
@[simp] theorem raise_half (c : Condition) (s : State) : (raise c s).half = s.half := by cases c <;> rfl
@[simp] theorem raise_matchFlag (c : Condition) (s : State) : (raise c s).matchFlag = s.matchFlag := by cases c <;> rfl
@[simp] theorem raise_hinib (c : Condition) (s : State) : (raise c s).hinib = s.hinib := by cases c <;> rfl
@[simp] theorem raise_lastByte (c : Condition) (s : State) : (raise c s).lastByte = s.lastByte := by cases c <;> rfl
@[simp] theorem raise_port (c : Condition) (s : State) : (raise c s).port = s.port := by cases c <;> rfl
@[simp] theorem raise_resetPin (c : Condition) (s : State) : (raise c s).resetPin = s.resetPin := by cases c <;> rfl
@[simp] theorem raise_response (c : Condition) (s : State) : (raise c s).response = s.response := by cases c <;> rfl

@[simp] theorem resetBlock_crc (s : State) : (resetBlock s).crc = 0xFFFF#16 := rfl
@[simp] theorem resetBlock_strict (s : State) : (resetBlock s).strict = false := rfl
@[simp] theorem resetBlock_errHex (s : State) : (resetBlock s).errHex = false := rfl
@[simp] theorem resetBlock_errOdd (s : State) : (resetBlock s).errOdd = false := rfl
@[simp] theorem resetBlock_errCmd (s : State) : (resetBlock s).errCmd = false := rfl
@[simp] theorem resetBlock_half (s : State) : (resetBlock s).half = false := rfl
@[simp] theorem resetBlock_matchFlag (s : State) : (resetBlock s).matchFlag = false := rfl
@[simp] theorem resetBlock_hinib (s : State) : (resetBlock s).hinib = 0x0#4 := rfl
@[simp] theorem resetBlock_lastByte (s : State) : (resetBlock s).lastByte = 0x00#8 := rfl
@[simp] theorem resetBlock_port (s : State) : (resetBlock s).port = s.port := rfl
@[simp] theorem resetBlock_resetPin (s : State) : (resetBlock s).resetPin = s.resetPin := rfl
@[simp] theorem resetBlock_response (s : State) : (resetBlock s).response = s.response := rfl

end Sys2Proof.Machine
end

