-- ==== Sys2Proof/Laws/Ops.lean ====
section
/-! SUPPORT. What the hex decoder's shared operations can do, said once. -/

namespace Sys2Proof.Machine

/-- A non-hex character in strict mode (R102): only ERR_HEX. -/
theorem hexAccept_rejected {c : Byte} {s : State} (hs : s.strict = true) (hc : isHex c = false) :
    hexAccept c s = (raise .invalidHexDigit s, none) := by
  simp [hexAccept, hs, hc]

/-- The first character of a pair (R102). -/
theorem hexAccept_first {c : Byte} {s : State} (hc : s.strict = false ∨ isHex c = true)
    (hh : s.half = false) : hexAccept c s = (holdNibble (nib c) s, none) := by
  rcases hc with h | h <;> simp [hexAccept, h, hh]

/-- The second character of a pair (R102). -/
theorem hexAccept_second {c : Byte} {s : State} (hc : s.strict = false ∨ isHex c = true)
    (hh : s.half = true) :
    hexAccept c s = (completePair (s.hinib ++ nib c) s, some (s.hinib ++ nib c)) := by
  rcases hc with h | h <;> simp [hexAccept, h, hh]

/-- Everything the character step can do, with the conditions it does it under. -/
theorem hexAccept_cases (c : Byte) (s : State) :
    (s.strict = true ∧ isHex c = false ∧ hexAccept c s = (raise .invalidHexDigit s, none)) ∨
    ((s.strict = false ∨ isHex c = true) ∧ s.half = false ∧
      hexAccept c s = (holdNibble (nib c) s, none)) ∨
    ((s.strict = false ∨ isHex c = true) ∧ s.half = true ∧
      hexAccept c s = (completePair (s.hinib ++ nib c) s, some (s.hinib ++ nib c))) := by
  by_cases hr : s.strict = true ∧ isHex c = false
  · exact .inl ⟨hr.1, hr.2, hexAccept_rejected hr.1 hr.2⟩
  · have ha : s.strict = false ∨ isHex c = true := by
      cases h1 : s.strict <;> cases h2 : isHex c <;> simp_all
    cases hh : s.half
    · exact .inr (.inl ⟨ha, rfl, hexAccept_first ha hh⟩)
    · exact .inr (.inr ⟨ha, rfl, hexAccept_second ha hh⟩)

/-- Without a completed byte the CRC path is not taken. -/
theorem feedByte_none (path : Crc → Byte → Crc) (s : State) : feedByte path (s, none) = s := rfl

/-- A completed byte goes through the CRC path once. -/
theorem feedByte_some (path : Crc → Byte → Crc) (s : State) (b : Byte) :
    feedByte path (s, some b) = loadCrc (path s.crc b) s := rfl

/-- FLUSH with nothing pending (R106). -/
theorem execFlush_idle {s : State} (h : s.half = false) : execFlush s = .next s := by
  simp [execFlush, h]

/-- FLUSH drops the pending character; in strict mode it reports it (R106). -/
theorem execFlush_pending {s : State} (h : s.half = true) :
    execFlush s = .next (dropNibble (if s.strict then raise .oddLengthInput s else s)) := by
  simp [execFlush, h]

end Sys2Proof.Machine
end

