-- ==== Sys2Proof/Laws/Exec.lean ====
section
/-! SUPPORT. What executing one command can do, and how a sequence of commands runs. -/

namespace Sys2Proof.Machine

/-- The state a command leaves, when it is asked for as a state. -/
def after (i : Instr) (s : State) : State :=
  match exec i s with
  | .next t => t
  | .fault _ => s
  | .refused _ => s

/-- Every command answers a next state in every state (R164, R189). -/
theorem exec_next (i : Instr) (s : State) : exec i s = .next (after i s) := by
  cases i <;> rfl

/-- No command reads or writes what surrounds the block. -/
theorem after_with_surroundings (i : Instr) (s : State) (p : List Input) (r : Bool) (q : Option Response) :
    after i { s with port := p, resetPin := r, response := q } =
      { after i s with port := p, resetPin := r, response := q } := by
  have accept : ∀ c, hexAccept c { s with port := p, resetPin := r, response := q } =
      ({ (hexAccept c s).1 with port := p, resetPin := r, response := q }, (hexAccept c s).2) := by
    intro c
    unfold hexAccept
    split <;> simp_all [raise]
    split <;> rfl
  have feed : ∀ path (x : State × Option Byte),
      feedByte path ({ x.1 with port := p, resetPin := r, response := q }, x.2) =
        { feedByte path x with port := p, resetPin := r, response := q } := by
    rintro path ⟨t, _ | b⟩ <;> rfl
  cases i with
  | hext c => simp only [after, exec, execHext, accept, feed]
  | hexb c => simp only [after, exec, execHexb, accept, feed]
  | hexn c => simp only [after, exec, execHexn, accept]
  | flush =>
    simp only [after, exec, execFlush]
    split <;> [split; skip] <;> rfl
  | nop | init _ | bytet _ | byteb _ | bitb _ | check _ => rfl

theorem hexAccept_surroundings (c : Byte) (s : State) :
    (hexAccept c s).1.port = s.port ∧ (hexAccept c s).1.resetPin = s.resetPin ∧
      (hexAccept c s).1.response = s.response ∧ (hexAccept c s).1.strict = s.strict ∧
      (hexAccept c s).1.crc = s.crc ∧ (hexAccept c s).1.matchFlag = s.matchFlag ∧
      (hexAccept c s).1.errOdd = s.errOdd ∧ (hexAccept c s).1.errCmd = s.errCmd := by
  obtain ⟨_, _, h⟩ | ⟨_, _, h⟩ | ⟨_, _, h⟩ := hexAccept_cases c s <;> simp [h]

/-- What every command keeps: the surroundings and STRICT (R22, R33). -/
theorem after_keeps (i : Instr) (s : State) :
    (after i s).port = s.port ∧ (after i s).resetPin = s.resetPin ∧ (after i s).response = s.response ∧
      (after i s).strict = s.strict := by
  have feed : ∀ path c, (feedByte path (hexAccept c s)).port = s.port ∧
      (feedByte path (hexAccept c s)).resetPin = s.resetPin ∧
      (feedByte path (hexAccept c s)).response = s.response ∧
      (feedByte path (hexAccept c s)).strict = s.strict := by
    intro path c
    obtain ⟨_, _, h⟩ | ⟨_, _, h⟩ | ⟨_, _, h⟩ := hexAccept_cases c s <;>
      simp [h, feedByte_none, feedByte_some]
  cases i with
  | hext c => exact feed tableStep c
  | hexb c => exact feed bytewiseStep c
  | hexn c =>
    obtain ⟨h1, h2, h3, h4, _⟩ := hexAccept_surroundings c s
    exact ⟨h1, h2, h3, h4⟩
  | flush =>
    simp only [after, exec, execFlush]
    split <;> [split; skip] <;> simp
  | nop | init _ | bytet _ | byteb _ | bitb _ | check _ => exact ⟨rfl, rfl, rfl, rfl⟩

/-- Which commands can write which element of the block (R33). -/
theorem after_writers (i : Instr) (s : State) :
    ((after i s).crc ≠ s.crc → (∃ v, i = .init v) ∨ (∃ b, i = .bytet b ∨ i = .byteb b) ∨ (∃ d, i = .bitb d) ∨
      (s.half = true ∧ ∃ c, i = .hext c ∨ i = .hexb c)) ∧
    ((after i s).half ≠ s.half ∨ (after i s).hinib ≠ s.hinib →
      (∃ c, i = .hext c ∨ i = .hexb c ∨ i = .hexn c) ∨ i = .flush ∨ ∃ v, i = .init v) ∧
    ((after i s).matchFlag ≠ s.matchFlag → ∃ v, i = .check v ∨ i = .init v) ∧
    ((after i s).lastByte ≠ s.lastByte →
      s.half = true ∧ ∃ c, i = .hext c ∨ i = .hexb c ∨ i = .hexn c) := by
  cases i with
  | hext c | hexb c | hexn c =>
    obtain ⟨_, _, h⟩ | ⟨_, h2, h⟩ | ⟨_, h2, h⟩ := hexAccept_cases c s <;>
      simp_all [after, exec, execHext, execHexb, execHexn, feedByte_none, feedByte_some]
  | flush =>
    cases h : s.half <;> cases h2 : s.strict <;> simp [after, exec, execFlush, h, h2]
  | nop | init _ | bytet _ | byteb _ | bitb _ | check _ =>
    simp [after, exec, execNop, execInit, execBytet, execByteb, execBitb, execCheck]

/-- What a command does to the sticky error bits (R23, R162, R163, R168). -/
theorem after_errors (i : Instr) (s : State) :
    ((∃ v, i = .init v) →
      (after i s).errHex = false ∧ (after i s).errOdd = false ∧ (after i s).errCmd = false) ∧
    ((∀ v, i ≠ .init v) → (after i s).errCmd = s.errCmd ∧
      ((after i s).errHex = true ↔ s.errHex = true ∨ s.strict = true ∧ ∃ c, isHex c = false ∧
        (i = .hext c ∨ i = .hexb c ∨ i = .hexn c)) ∧
      ((after i s).errOdd = true ↔ s.errOdd = true ∨ s.strict = true ∧ s.half = true ∧ i = .flush)) := by
  cases i with
  | hext c | hexb c | hexn c =>
    obtain ⟨h1, h2, h⟩ | ⟨h1, h2, h⟩ | ⟨h1, h2, h⟩ := hexAccept_cases c s <;>
      simp [after, exec, execHext, execHexb, execHexn, h, feedByte_none, feedByte_some, h1, h2] <;> grind
  | flush =>
    cases h : s.half <;> cases h2 : s.strict <;> simp [after, exec, execFlush, h, h2]
  | nop | init _ | bytet _ | byteb _ | bitb _ | check _ =>
    simp [after, exec, execNop, execInit, execBytet, execByteb, execBitb, execCheck]

/-- The state a sequence of commands leaves. -/
def afterAll (is : List Instr) (s : State) : State := is.foldl (fun t i => after i t) s

theorem execAll_next (is : List Instr) (s : State) : execAll is s = .next (afterAll is s) := by
  induction is generalizing s with
  | nil => rfl
  | cons i is ih => simp only [execAll, exec_next i s, ih]; rfl

theorem afterAll_cons (i : Instr) (is : List Instr) (s : State) :
    afterAll (i :: is) s = afterAll is (after i s) := rfl

/-- A sequence in two parts runs one after the other (R60). -/
theorem afterAll_append (is js : List Instr) (s : State) :
    afterAll (is ++ js) s = afterAll js (afterAll is s) := by simp [afterAll, List.foldl_append]

/-- A sequence of commands neither reads nor writes what surrounds the block. -/
theorem afterAll_with_surroundings (is : List Instr) (s : State) (p : List Input) (r : Bool)
    (q : Option Response) :
    afterAll is { s with port := p, resetPin := r, response := q } =
      { afterAll is s with port := p, resetPin := r, response := q } := by
  induction is generalizing s with
  | nil => rfl
  | cons i is ih => simp only [afterAll_cons, after_with_surroundings, ih]

/-- What every sequence of commands keeps. -/
theorem afterAll_keeps (is : List Instr) (s : State) :
    (afterAll is s).port = s.port ∧ (afterAll is s).resetPin = s.resetPin ∧
      (afterAll is s).response = s.response ∧ (afterAll is s).strict = s.strict := by
  induction is generalizing s with
  | nil => exact ⟨rfl, rfl, rfl, rfl⟩
  | cons i is ih => simp only [afterAll_cons, ih, after_keeps, and_self]

/-- BYTET commands fold the table step over their bytes and change nothing else. -/
theorem afterAll_bytet (bs : List Byte) (s : State) :
    afterAll (bs.map .bytet) s = loadCrc (crc16Table bs s.crc) s := by
  induction bs generalizing s with
  | nil => rfl
  | cons b bs ih => rw [List.map_cons, afterAll_cons, ih]; rfl

/-- BYTEB commands fold the bitwise step over their bytes and change nothing else. -/
theorem afterAll_byteb (bs : List Byte) (s : State) :
    afterAll (bs.map .byteb) s = loadCrc (crc16Bitwise bs s.crc) s := by
  induction bs generalizing s with
  | nil => rfl
  | cons b bs ih => rw [List.map_cons, afterAll_cons, ih]; rfl

end Sys2Proof.Machine
end

