-- ==== Sys2Proof/Laws/PerInstr.lean ====
section
/-! SUPPORT. Statements about every command as syntax, one lemma per constructor. -/

namespace Sys2Proof.Laws

/-- A word whose low bits alone are operand: masking the operand off leaves the match value. -/
theorem mask_operand (hi lo : Nat) (m : BitVec hi) (x : BitVec lo) :
    (m ++ x) &&& (BitVec.allOnes hi ++ 0#lo) = m ++ 0#lo := by
  rw [BitVec.and_append, BitVec.and_allOnes, BitVec.and_zero]

/-- The word of a byte command with its operand split off. -/
theorem byteWord_split (op : BitVec 8) (b : Byte) :
    commandWord op (0x00#8 ++ b) = (op ++ 0x0000#16 : BitVec 24) ++ b := by
  have h : (op ++ 0x00#8 ++ (0x00#8 ++ b)).toNat = ((op ++ 0x0000#16) ++ b).toNat := by
    simp only [BitVec.toNat_append, BitVec.toNat_ofNat]
    simp [← Nat.shiftLeft_add]
  exact BitVec.eq_of_toNat_eq h

/-- The three upper bytes of a byte command's word are its match value. -/
theorem mask_byteWord (op : BitVec 8) (b : Byte) :
    commandWord op (0x00#8 ++ b) &&& 0xFFFFFF00#32 = (op ++ 0x0000#16 : BitVec 24) ++ 0x00#8 := by
  rw [byteWord_split]
  exact mask_operand 24 8 _ b

end Sys2Proof.Laws

namespace Sys2Proof.Laws.RowOfWord

/-- The word of a command is selected by the row of R85 that bears its mnemonic. -/
def Statement (i : Instr) : Prop :=
  ∃ r ∈ commandRows, r.mnemonic = i.mnemonic ∧ encode i &&& r.mask = r.matchBits

theorem nop : Statement .nop := ⟨⟨"NOP", 0x00000000#32, 0xFFFFFFFF#32⟩, by decide⟩

theorem init (v16 : BitVec 16) : Statement (.init v16) :=
  ⟨⟨"INIT", 0x01000000#32, 0xFFFF0000#32⟩, by decide, rfl, mask_operand 16 16 (0x01#8 ++ 0x00#8) v16⟩

theorem bytet (b8 : BitVec 8) : Statement (.bytet b8) :=
  ⟨⟨"BYTET", 0x02000000#32, 0xFFFFFF00#32⟩, by decide, rfl, mask_byteWord 0x02#8 b8⟩

theorem byteb (b8 : BitVec 8) : Statement (.byteb b8) :=
  ⟨⟨"BYTEB", 0x03000000#32, 0xFFFFFF00#32⟩, by decide, rfl, mask_byteWord 0x03#8 b8⟩

theorem bitb (d1 : BitVec 1) : Statement (.bitb d1) :=
  ⟨⟨"BITB", 0x04000000#32, 0xFFFFFFFE#32⟩, by decide, rfl, by revert d1; decide⟩

theorem hext (c8 : BitVec 8) : Statement (.hext c8) :=
  ⟨⟨"HEXT", 0x05000000#32, 0xFFFFFF00#32⟩, by decide, rfl, mask_byteWord 0x05#8 c8⟩

theorem hexb (c8 : BitVec 8) : Statement (.hexb c8) :=
  ⟨⟨"HEXB", 0x06000000#32, 0xFFFFFF00#32⟩, by decide, rfl, mask_byteWord 0x06#8 c8⟩

theorem hexn (c8 : BitVec 8) : Statement (.hexn c8) :=
  ⟨⟨"HEXN", 0x07000000#32, 0xFFFFFF00#32⟩, by decide, rfl, mask_byteWord 0x07#8 c8⟩

theorem flush : Statement .flush := ⟨⟨"FLUSH", 0x08000000#32, 0xFFFFFFFF#32⟩, by decide⟩

theorem check (v16 : BitVec 16) : Statement (.check v16) :=
  ⟨⟨"CHECK", 0x09000000#32, 0xFFFF0000#32⟩, by decide, rfl, mask_operand 16 16 (0x09#8 ++ 0x00#8) v16⟩

end Sys2Proof.Laws.RowOfWord
end

