-- ==== Sys2Proof/Laws/Step.lean ====
section
/-! SUPPORT. What one step can do: a lemma per kind of input, and the inversion of the step. -/

namespace Sys2Proof.Machine

theorem step_idle {s : State} (h : s.port = []) : step s = .next s := by simp [step, h]

theorem step_input {s : State} {x : Input} {rest : List Input} (h : s.port = x :: rest) :
    step s = serveInput x { s with port := rest } := by simp [step, h]

/-- An access while reset is asserted is not accepted (R180). -/
theorem serveInput_held {a : Access} {s : State} (h : s.resetPin = true) :
    serveInput (.access a) s = .next (respond none s) := by simp [serveInput, h]

theorem serveInput_accepted {a : Access} {s : State} (h : s.resetPin = false) :
    serveInput (.access a) s = serveAccess a s := by simp [serveInput, h]

/-- A read answers its value or the error response, and changes nothing else (R53, R54, R160). -/
theorem serveAccess_read (off : Offset) (n : Nat) (s : State) :
    (∃ r, resolveRead off n = .ok r ∧
      serveAccess (.read off n) s = .next (respond (some (.data (readReg r s))) s)) ∨
    (resolveRead off n = .error (.busError off) ∧
      serveAccess (.read off n) s = .next (respond (some .busError) s)) := by
  cases h : resolveRead off n with
  | ok r => exact .inl ⟨r, rfl, by simp [serveAccess, memRead, h]⟩
  | error e =>
    refine .inr ⟨?_, by simp [serveAccess, memRead, h]⟩
    unfold resolveRead at h
    split at h
    · split at h <;> simp_all
    · simp_all

/-- A write reaches CMD or CTRL, or answers the error response (R55 to R57, R160). -/
theorem serveAccess_write (off : Offset) (n : Nat) (v : Word) (s : State) :
    (resolveWrite off n = .ok .cmd ∧ off = 0x000#12 ∧ n = 4 ∧
      serveAccess (.write off n v) s = executeWord v (respond (some .ok) s)) ∨
    (resolveWrite off n = .ok .ctrl ∧ off = 0x004#12 ∧ n = 4 ∧
      serveAccess (.write off n v) s = .next (writeStrict (v.getLsbD 0) (respond (some .ok) s))) ∨
    (resolveWrite off n = .error (.busError off) ∧ ¬ (n = 4 ∧ (off = 0x000#12 ∨ off = 0x004#12)) ∧
      serveAccess (.write off n v) s = .next (respond (some .busError) s)) := by
  by_cases hn : n = 4
  · by_cases h0 : off = 0x000#12
    · have hr : resolveWrite off n = .ok .cmd := by subst hn h0; rfl
      exact .inl ⟨hr, h0, hn, by simp [serveAccess, hr, writeReg]⟩
    · by_cases h4 : off = 0x004#12
      · have hr : resolveWrite off n = .ok .ctrl := by subst hn h4; rfl
        exact .inr (.inl ⟨hr, h4, hn, by simp [serveAccess, hr, writeReg]⟩)
      · have hr : resolveWrite off n = .error (.busError off) := by simp [resolveWrite, writeAt, h0, h4]
        exact .inr (.inr ⟨hr, by simp [h0, h4], by simp [serveAccess, hr]⟩)
  · have hr : resolveWrite off n = .error (.busError off) := by simp [resolveWrite, admitted, hn]
    exact .inr (.inr ⟨hr, by simp [hn], by simp [serveAccess, hr]⟩)

/-- A command word executes its command or sets ERR_CMD (R80, R88). -/
theorem executeWord_cases (w : Word) (s : State) :
    (∃ i, decode w = .ok i ∧ executeWord w s = .next (after i s)) ∨
    (∃ e, decode w = .error e ∧ executeWord w s = .next (raise .illegalCommand s)) := by
  cases h : decode w with
  | ok i => exact .inl ⟨i, rfl, by simp [executeWord, h, exec_next]⟩
  | error e => exact .inr ⟨e, rfl, by simp [executeWord, h]⟩

/-- Everything one input can do to the machine. -/
theorem serveInput_cases (x : Input) (s : State) :
    (x = .reset true ∧ serveInput x s = .next (respond none (resetBlock { s with resetPin := true }))) ∨
    (x = .reset false ∧ serveInput x s = .next (respond none { s with resetPin := false })) ∨
    (∃ a, x = .access a ∧ s.resetPin = true ∧ serveInput x s = .next (respond none s)) ∨
    (∃ a r, x = .access a ∧ s.resetPin = false ∧ serveInput x s = .next (respond (some r) s) ∧
      ∀ w, a ≠ .write 0x000#12 4 w ∧ a ≠ .write 0x004#12 4 w) ∨
    (∃ v, x = .access (.write 0x004#12 4 v) ∧ s.resetPin = false ∧
      serveInput x s = .next (writeStrict (v.getLsbD 0) (respond (some .ok) s))) ∨
    (∃ w i, x = .access (.write 0x000#12 4 w) ∧ s.resetPin = false ∧ decode w = .ok i ∧
      serveInput x s = .next (after i (respond (some .ok) s))) ∨
    (∃ w e, x = .access (.write 0x000#12 4 w) ∧ s.resetPin = false ∧ decode w = .error e ∧
      serveInput x s = .next (raise .illegalCommand (respond (some .ok) s))) := by
  cases x with
  | reset b => cases b <;> simp [serveInput]
  | access a =>
    cases hp : s.resetPin with
    | true => simp [serveInput_held hp]
    | false =>
      rw [serveInput_accepted hp]
      cases a with
      | read off n =>
        obtain ⟨r, _, h⟩ | ⟨_, h⟩ := serveAccess_read off n s <;>
          exact .inr (.inr (.inr (.inl ⟨_, _, rfl, rfl, h, by simp⟩)))
      | write off n v =>
        obtain ⟨_, rfl, rfl, h⟩ | ⟨_, rfl, rfl, h⟩ | ⟨_, hne, h⟩ := serveAccess_write off n v s
        · rw [h]
          obtain ⟨i, hd, he⟩ | ⟨e, hd, he⟩ := executeWord_cases v (respond (some .ok) s) <;> simp [hd, he]
        · simp [h]
        · rw [h]
          refine .inr (.inr (.inr (.inl ⟨_, _, rfl, rfl, rfl, fun w => ⟨?_, ?_⟩⟩)))
          all_goals
            intro he
            simp only [Access.write.injEq] at he
            exact hne ⟨he.2.1, by simp [he.1]⟩

/-- A step answers a next state for every input. -/
theorem serveInput_next (x : Input) (s : State) : ∃ t, serveInput x s = .next t := by
  obtain ⟨_, h⟩ | ⟨_, h⟩ | ⟨_, _, _, h⟩ | ⟨_, _, _, _, h, _⟩ | ⟨_, _, _, h⟩ | ⟨_, _, _, _, _, h⟩ |
    ⟨_, _, _, _, _, h⟩ := serveInput_cases x s <;> exact ⟨_, h⟩

/-- Everything one step can do, by what the port holds: nothing; an edge of reset asserted; an input that
only changes the surroundings (a release of reset, an access not accepted, a read, a rejected access); a
write to CTRL; a command; an illegal word. -/
theorem step_cases (s : State) :
    (s.port = [] ∧ s.nextCommand = none ∧ step s = .next s) ∨
    (s.nextIsReset ∧ s.nextCommand = none ∧
      step s = .next { State.reset with port := s.port.tail, resetPin := true }) ∨
    (¬ s.nextIsReset ∧ s.nextCommand = none ∧ (∃ r b, step s =
        .next { s with port := s.port.tail, resetPin := b, response := r }) ∧
      ∀ w rest, s.resetPin = false → s.port ≠ .access (.write 0x000#12 4 w) :: rest) ∨
    (¬ s.nextIsReset ∧ s.nextCommand = none ∧ (∃ v, s.nextWritesCtrl v ∧ step s =
        .next { s with port := s.port.tail, response := some .ok, strict := v.getLsbD 0 }) ∧
      ∀ w rest, s.port ≠ .access (.write 0x000#12 4 w) :: rest) ∨
    (∃ w i rest, ¬ s.nextIsReset ∧ s.resetPin = false ∧
      s.port = .access (.write 0x000#12 4 w) :: rest ∧ decode w = .ok i ∧ s.nextCommand = some i ∧
      step s = .next { after i s with port := rest, response := some .ok }) ∨
    (∃ w e rest, ¬ s.nextIsReset ∧ s.resetPin = false ∧
      s.port = .access (.write 0x000#12 4 w) :: rest ∧ decode w = .error e ∧ s.nextCommand = none ∧
      step s = .next { s with port := rest, response := some .ok, errCmd := true }) := by
  cases hp : s.port with
  | nil => exact .inl ⟨rfl, by simp [State.nextCommand, hp], step_idle hp⟩
  | cons x rest =>
    right
    rw [step_input hp]
    simp only [State.nextIsReset, State.nextCommand, State.nextWritesCtrl, hp]
    obtain ⟨rfl, h⟩ | ⟨rfl, h⟩ | ⟨a, rfl, hr, h⟩ | ⟨a, r, rfl, hr, h, hne⟩ | ⟨v, rfl, hr, h⟩ |
      ⟨w, i, rfl, hr, hd, h⟩ | ⟨w, e, rfl, hr, hd, h⟩ := serveInput_cases x { s with port := rest }
    all_goals rw [h]
    · exact .inl ⟨rfl, rfl, rfl⟩
    · exact .inr (.inl ⟨by simp, rfl, ⟨_, _, rfl⟩, by simp⟩)
    · have hr' : s.resetPin = true := hr
      exact .inr (.inl ⟨by simp, by cases a <;> simp [hr'], ⟨_, s.resetPin, rfl⟩, by simp [hr']⟩)
    · refine .inr (.inl ⟨by simp, ?_, ⟨_, s.resetPin, rfl⟩, fun w rest' _ he => ?_⟩)
      · cases a with
        | read off n => rfl
        | write off n v =>
          refine if_neg fun hc => (hne v).1 ?_
          rw [hc.2.1, hc.2.2]
      · simp only [List.cons.injEq, Input.access.injEq] at he
        exact (hne w).1 he.1
    · exact .inr (.inr (.inl ⟨by simp, by simp, ⟨v, ⟨hr, rfl⟩, rfl⟩, by simp⟩))
    · have hr' : s.resetPin = false := hr
      refine .inr (.inr (.inr (.inl ⟨w, i, rest, by simp, hr, rfl, hd, by simp [hr', hd, Except.toOption], ?_⟩)))
      have h1 := after_with_surroundings i s rest s.resetPin (some .ok)
      rw [← (after_keeps i s).2.1] at h1
      exact congrArg _ ((congrArg (after i) (by simp [respond, after_keeps])).trans h1)
    · have hr' : s.resetPin = false := hr
      exact .inr (.inr (.inr (.inr ⟨w, e, rest, by simp, hr, rfl, hd, by simp [hr', hd, Except.toOption], rfl⟩)))

theorem runSteps_succ {s t : State} (k : Nat) (h : step s = .next t) : runSteps (k + 1) s = runSteps k t := by
  simp [runSteps, h]

end Sys2Proof.Machine
end

