-- ==== Sys2Proof/Laws/Window.lean ====
section
/-! SUPPORT. The register window: what an access is admitted for and where each register stands. -/

namespace Sys2Proof.Machine

/-- R51 on numbers. -/
theorem admitted_iff (off : Offset) (n : Nat) : admitted off n = true ↔ n = 4 ∧ off.toNat % 4 = 0 := by
  simp [admitted, ← BitVec.toNat_inj]

/-- The offset R52 gives a register reads that register. -/
theorem readAt_offset (r : ReadReg) : readAt r.offset = some r := by
  cases r with
  | table i =>
    have hi := i.isLt
    have hs : (i.setWidth 12 <<< 2 : BitVec 12).toNat = 4 * i.toNat := by
      simp only [BitVec.toNat_shiftLeft, BitVec.toNat_setWidth]
      omega
    have ho : (ReadReg.table i).offset.toNat = 0x400 + 4 * i.toNat := by
      simp only [ReadReg.offset, BitVec.toNat_add, hs, BitVec.toNat_ofNat]
      omega
    have hx : (ReadReg.table i).offset.extractLsb' 2 8 = i := by
      apply BitVec.eq_of_toNat_eq
      rw [BitVec.extractLsb'_toNat, ho, Nat.shiftRight_eq_div_pow]
      omega
    simp only [readAt, BitVec.le_def, ← BitVec.toNat_inj, ho, hx, BitVec.toNat_ofNat]
    repeat' split
    all_goals first | rfl | omega
  | ctrl | status | crc | result | lastByte | param => rfl

/-- A register that is no table entry is read at its own offset only. -/
theorem readAt_eq_some {off : Offset} {r : ReadReg} (h : readAt off = some r) :
    off = r.offset ∨ ∃ i, r = .table i := by
  unfold readAt at h
  repeat' split at h
  all_goals first
    | exact .inl (by cases h; assumption)
    | exact .inr ⟨_, (Option.some.inj h).symm⟩
    | cases h

/-- An aligned offset no register answers at is outside the readable ranges of R52, and only then. -/
theorem readAt_eq_none {off : Offset} (h : off.toNat % 4 = 0) :
    readAt off = none ↔ ¬ (0x004 ≤ off.toNat ∧ off.toNat ≤ 0x018 ∨ 0x400 ≤ off.toNat ∧ off.toNat ≤ 0x7FC) := by
  simp only [readAt, BitVec.le_def, ← BitVec.toNat_inj, BitVec.toNat_ofNat]
  repeat' split
  all_goals simp_all
  all_goals omega

/-- A read that R51 and R52 admit reaches the register at its offset; any other raises BusError. -/
theorem resolveRead_cases (off : Offset) (n : Nat) :
    (∃ r, n = 4 ∧ off.toNat % 4 = 0 ∧ readAt off = some r ∧ resolveRead off n = .ok r) ∨
    (¬ (n = 4 ∧ off.toNat % 4 = 0 ∧ readAt off ≠ none) ∧ resolveRead off n = .error (.busError off)) := by
  unfold resolveRead
  by_cases h : admitted off n = true
  · obtain ⟨hn, ha⟩ := (admitted_iff off n).1 h
    cases hr : readAt off with
    | some r => exact .inl ⟨r, hn, ha, rfl, by simp [h]⟩
    | none => exact .inr ⟨by simp, by simp [h]⟩
  · exact .inr ⟨fun hc => h ((admitted_iff off n).2 ⟨hc.1, hc.2.1⟩), by simp [h]⟩

end Sys2Proof.Machine
end

