-- ==== Sys2Proof/Tests/Slice0.lean ====
section
/-! SUPPORT. Small tests, their expected values from 95_test_vectors.md (D-...) and the rules' own examples, and a witness for the hypotheses of each statement. -/

namespace Sys2Proof.Tests

open Sys2Proof.Machine Sys2Proof.Spec

/-- The state of an outcome, if it is a next state. -/
def nextOf (o : Host.Outcome State Fault Refusal) : Option State :=
  match o with
  | .next t => some t
  | .fault _ => none
  | .refused _ => none

/-- A state with a given `crc`, otherwise reset. -/
def withCrc (c : Crc) : State := { State.reset with crc := c }

/-- A state with '4' pending, in either mode. -/
def pending (strict : Bool) : State := { State.reset with half := true, hinib := 0x4#4, strict := strict }

/-- A state in strict mode with nothing pending. -/
def strictMode : State := { State.reset with strict := true }

/-- A state whose port holds the given inputs. -/
def presented (xs : List Input) : State := { State.reset with port := xs }

/-! ### Well-formedness (R90): each check refuses a term out of range -/

theorem test_wellFormed_refuses_init : (SourceCommand.init 0x10000).wellFormed = false := by decide
theorem test_wellFormed_refuses_bytet : (SourceCommand.bytet 0x100).wellFormed = false := by decide
theorem test_wellFormed_refuses_byteb : (SourceCommand.byteb 0x100).wellFormed = false := by decide
theorem test_wellFormed_refuses_bitb : (SourceCommand.bitb 2).wellFormed = false := by decide
theorem test_wellFormed_refuses_hext : (SourceCommand.hext 0x100).wellFormed = false := by decide
theorem test_wellFormed_refuses_hexb : (SourceCommand.hexb 0x100).wellFormed = false := by decide
theorem test_wellFormed_refuses_hexn : (SourceCommand.hexn 0x100).wellFormed = false := by decide
theorem test_wellFormed_refuses_check : (SourceCommand.check 0x10000).wellFormed = false := by decide
theorem test_wellFormed_admits_bounds :
    (SourceCommand.init 0xFFFF).wellFormed ∧ (SourceCommand.bytet 0xFF).wellFormed ∧
      (SourceCommand.bitb 1).wellFormed ∧ (SourceCommand.check 0).wellFormed := by decide

/-! ### Decoding: words written out from R85's patterns (D-CTL, D-ILL, P1 to P4) -/

theorem test_decode_nop : decode 0b00000000000000000000000000000000#32 = .ok .nop := by decide
theorem test_decode_init : decode 0b00000001000000000001001000110100#32 = .ok (.init 0x1234#16) := by decide
theorem test_decode_bytet : decode 0b00000010000000000000000000110001#32 = .ok (.bytet 0x31#8) := by decide
theorem test_decode_byteb : decode 0b00000011000000000000000010000000#32 = .ok (.byteb 0x80#8) := by decide
theorem test_decode_bitb : decode 0b00000100000000000000000000000001#32 = .ok (.bitb 1#1) := by decide
theorem test_decode_hext : decode 0b00000101000000000000000000110100#32 = .ok (.hext 0x34#8) := by decide
theorem test_decode_hexb : decode 0b00000110000000000000000000110000#32 = .ok (.hexb 0x30#8) := by decide
theorem test_decode_hexn : decode 0b00000111000000000000000001111010#32 = .ok (.hexn 0x7A#8) := by decide
theorem test_decode_flush : decode 0b00001000000000000000000000000000#32 = .ok .flush := by decide
theorem test_decode_check : decode 0b00001001000000001001000001101110#32 = .ok (.check 0x906E#16) := by decide

/-- D-ILL-1 to D-ILL-9, each by its ground. -/
theorem test_decode_illegal :
    decode 0x0A000000#32 = .error .unknownOpcode ∧ decode 0xFF000000#32 = .error .unknownOpcode ∧
    decode 0x00010000#32 = .error .reservedField ∧ decode 0x00000001#32 = .error .mustBeZero ∧
    decode 0x02000100#32 = .error .mustBeZero ∧ decode 0x04000002#32 = .error .mustBeZero ∧
    decode 0x08000001#32 = .error .mustBeZero ∧ decode 0x01800000#32 = .error .reservedField ∧
    decode 0x0500FF41#32 = .error .mustBeZero := by decide

theorem test_table_numbering : decodeTableWord 32 0x09006E90 = some (.check 0x6E90#16) ∧
    decodeTableWord 32 0x0A000000 = none ∧ decodeTableWord 40 0x0100000000 = none := by decide

/-! ### One step of each command -/

/-- D-CTL-1, at the port. -/
theorem test_nop_step :
    nextOf (step (State.reset.withFetchWord 32 0x00000000)) = some { State.reset with response := some .ok } := by
  decide

/-- D-CTL-2; INIT leaves STRICT and LASTBYTE (R141). -/
theorem test_init :
    nextOf (exec (.init 0x1234#16) { pending true with lastByte := 0xAB#8, errHex := true, matchFlag := true }) =
      some { State.reset with crc := 0x1234#16, strict := true, lastByte := 0xAB#8 } := by decide

/-- D-TAB-7 and D-TAB-8. -/
theorem test_bytet : nextOf (exec (.bytet 0x41#8) State.reset) = some (withCrc 0x5C0A#16) ∧
    nextOf (exec (.bytet 0x56#8) (withCrc 0x1234#16)) = some (withCrc 0x4006#16) := by decide

/-- D-BYB-11 and D-BYB-9. -/
theorem test_byteb : nextOf (exec (.byteb 0x31#8) State.reset) = some (withCrc 0x2F8D#16) ∧
    nextOf (exec (.byteb 0x34#8) (withCrc 0x1234#16)) = some (withCrc 0x0012#16) := by decide

/-- D-BIT-5 and D-BIT-8. -/
theorem test_bitb : nextOf (exec (.bitb 0#1) State.reset) = some (withCrc 0xFBF7#16) ∧
    nextOf (exec (.bitb 1#1) (withCrc 0x8409#16)) = some (withCrc 0x4204#16) := by decide

/-- D-HEX-1: the first character is held. -/
theorem test_hext_first : nextOf (exec (.hext 0x34#8) State.reset) = some (pending false) := by decide

/-- D-HEX-2: the second one completes the byte. -/
theorem test_hext_second : nextOf (exec (.hext 0x31#8) (pending false)) =
    some { withCrc 0x5C0A#16 with lastByte := 0x41#8 } := by decide

/-- D-HEX-3. -/
theorem test_hexb_second : nextOf (exec (.hexb 0x31#8) (pending false)) =
    some { withCrc 0x5C0A#16 with lastByte := 0x41#8 } := by decide

/-- D-HEX-16: the second character is checked in strict mode, the pair stays pending. -/
theorem test_hexb_rejected : nextOf (exec (.hexb 0x47#8) (pending true)) =
    some { pending true with errHex := true } := by decide

/-- D-HEX-4. -/
theorem test_hexn_second : nextOf (exec (.hexn 0x31#8) (pending false)) =
    some { State.reset with lastByte := 0x41#8 } := by decide

/-- D-HEX-18, its second character: an upper-half code, unsigned. -/
theorem test_hexn_unsigned :
    nextOf (exec (.hexn 0x80#8) { State.reset with half := true, hinib := 0x8#4 }) =
      some { State.reset with lastByte := 0x89#8 } := by decide

/-- D-HEX-10 and D-HEX-11. -/
theorem test_flush : nextOf (exec .flush (pending false)) = some State.reset ∧
    nextOf (exec .flush (pending true)) = some { strictMode with errOdd := true } := by decide

/-- D-CTL-5 and D-CTL-7. -/
theorem test_check : nextOf (exec (.check 0x906E#16) (withCrc 0x6F91#16)) =
      some { withCrc 0x6F91#16 with matchFlag := true } ∧
    nextOf (exec (.check 0x6E90#16) { withCrc 0x6F91#16 with matchFlag := true }) =
      some (withCrc 0x6F91#16) := by decide

/-- D-ILL-10 at the port: an illegal word sets ERR_CMD beside ERR_HEX. -/
theorem test_illegal_word :
    nextOf (step { strictMode with errHex := true, port := [commandWrite 0x0A000000#32] }) =
      some { strictMode with errHex := true, errCmd := true, response := some .ok } := by decide

/-- P4, its illegal word 0x04000002: `crc` stays, ERR_CMD is set (assumption log 16: the write its line stands for). -/
theorem test_p4_word : nextOf (step { withCrc 0x8408#16 with port := [commandWrite 0x04000002#32] }) =
    some { withCrc 0x8408#16 with errCmd := true, response := some .ok } := by decide

/-! ### Digits (section 2.1) and the table (R30) -/

theorem test_digits : nib 0x7A#8 = 0x3#4 ∧ nib 0x7E#8 = 0x7#4 ∧ nib 0x66#8 = 0xF#4 ∧
    rawDigit 0x20#8 = 0xF0#8 ∧ rawDigit 0xFF#8 = 0xC8#8 ∧ rawDigit 0x40#8 = 0x10#8 := by decide

theorem test_isHex_bounds : isHex 0x30#8 ∧ isHex 0x39#8 ∧ ¬ isHex 0x3A#8 ∧ ¬ isHex 0x2F#8 ∧ isHex 0x46#8 ∧
    ¬ isHex 0x47#8 ∧ ¬ isHex 0x40#8 ∧ isHex 0x61#8 ∧ ¬ isHex 0x60#8 ∧ ¬ isHex 0x67#8 := by decide

/-- R30's spot checks and R31's example. -/
theorem test_table : tableEntry 0x80#8 = 0x8408#16 ∧ tableEntry 0x01#8 = 0x1189#16 ∧
    tableEntry 0xFF#8 = 0x0F78#16 ∧ tableEntry 0x81#8 = 0x9581#16 := by decide

/-! ### The window (section 2.7) -/

/-- D-BUS-1 to D-BUS-8. -/
theorem test_reads : memRead 0x000#12 4 State.reset = .error (.busError 0x000#12) ∧
    memRead 0x004#12 4 State.reset = .ok 0#32 ∧ memRead 0x008#12 4 State.reset = .ok 0#32 ∧
    memRead 0x00C#12 4 State.reset = .ok 0x0000FFFF#32 ∧ memRead 0x010#12 4 State.reset = .ok 0#32 ∧
    memRead 0x014#12 4 State.reset = .ok 0#32 ∧ memRead 0x018#12 4 State.reset = .ok 0xFFFF8408#32 ∧
    memRead 0x01C#12 4 State.reset = .error (.busError 0x01C#12) := by
  refine ⟨?_, ?_, ?_, ?_, ?_, ?_, ?_, ?_⟩ <;> rfl

/-- D-BUS-9, 11, 12, 13, 14, 16, 17. -/
theorem test_reads_table_and_holes : memRead 0x3FC#12 4 State.reset = .error (.busError 0x3FC#12) ∧
    memRead 0x404#12 4 State.reset = .ok 0x00001189#32 ∧ memRead 0x600#12 4 State.reset = .ok 0x00008408#32 ∧
    memRead 0x7FC#12 4 State.reset = .ok 0x00000F78#32 ∧
    memRead 0x800#12 4 State.reset = .error (.busError 0x800#12) ∧
    memRead 0x00C#12 2 State.reset = .error (.busError 0x00C#12) ∧
    memRead 0x00E#12 4 State.reset = .error (.busError 0x00E#12) := by
  refine ⟨?_, ?_, ?_, ?_, ?_, ?_, ?_⟩ <;> rfl

/-- D-HEX-16's STATUS and D-CTL-5's. -/
theorem test_status : statusWord { pending true with errHex := true } = 0x00000409#32 ∧
    statusWord { State.reset with matchFlag := true } = 0x00000010#32 ∧
    statusWord { State.reset with half := true, hinib := 0x1#4 } = 0x00000108#32 := by decide

/-- D-BUS-19. -/
theorem test_ctrl_write :
    nextOf (step (presented [.access (.write 0x004#12 4 0xFFFFFFFF#32)])) =
      some { strictMode with response := some .ok } := by decide

/-- D-BUS-20, 23, 25, 26. -/
theorem test_rejected_writes :
    resolveWrite 0x008#12 4 = .error (.busError 0x008#12) ∧ resolveWrite 0x400#12 4 = .error (.busError 0x400#12) ∧
    resolveWrite 0x000#12 1 = .error (.busError 0x000#12) ∧
    resolveWrite 0x002#12 4 = .error (.busError 0x002#12) := by
  refine ⟨?_, ?_, ?_, ?_⟩ <;> rfl

/-- R160 at the port: an error response and the next access goes on. -/
theorem test_bus_error_step :
    nextOf (step (presented [.access (.read 0x000#12 4), commandWrite 0#32])) =
      some { presented [commandWrite 0#32] with response := some .busError } := by decide

/-- R180: asserting reset, and an access while it is asserted. -/
theorem test_reset_input :
    nextOf (step { pending true with port := [.reset true] }) = some { State.reset with resetPin := true } ∧
    nextOf (step { State.reset with resetPin := true, port := [commandWrite 0x01001234#32] }) =
      some { State.reset with resetPin := true } := by decide

/-! ### Assembly (R90, R91) -/

/-- P1 and P3's lines. -/
theorem test_assemble : Line.toAccess (.command (.hext 0x34)) = some (.write 0x000#12 4 0x05000034#32) ∧
    Line.toAccess (.wrCtrl 1) = some (.write 0x004#12 4 1#32) ∧
    Line.toAccess (.rd (.table 0x80)) = some (.read 0x600#12 4) ∧
    Line.toAccess (.rd (.table 256)) = none ∧ Line.toAccess (.command (.bitb 2)) = none := by decide

/-- P2's CHECKLE and P4's BITS. -/
theorem test_expand : (Pseudo.checkle 0x6E#8 0x90#8).expand = [.check 0x906E#16] ∧
    (Pseudo.bits 0x41 8).expand =
      [.bitb 1#1, .bitb 0#1, .bitb 0#1, .bitb 0#1, .bitb 0#1, .bitb 0#1, .bitb 1#1, .bitb 0#1] := by decide

/-! ### Witnesses: the hypotheses of each statement that has some can be met -/

theorem witness_encodeInvertsDecode : decode 0x0500FF00#32 = .error .mustBeZero ∧
    decode 0x050000FF#32 = .ok (.hext 0xFF#8) := by decide

/-- A word under each clause of R87, at a bound of its range. -/
theorem witness_decodeFollowsItsAlgorithm :
    (0x0A00FFFF#32 : Word) = 0x0A#8 ++ 0x00#8 ++ 0xFFFF#16 ∧ 0x0A#8 ≤ (0x0A#8 : BitVec 8) ∧
    (0x00010000#32 : Word) = 0x00#8 ++ 0x01#8 ++ 0x0000#16 ∧
    (0x04000001#32 : Word) = 0x04#8 ++ 0x00#8 ++ 0x0001#16 ∧
    (0x0001#16 : BitVec 16).extractLsb' 1 15 = 0#15 ∧ (0x0002#16 : BitVec 16).extractLsb' 1 15 ≠ 0#15 ∧
    (0x00FF#16 : BitVec 16).extractLsb' 8 8 = 0#8 ∧ (0x0100#16 : BitVec 16).extractLsb' 8 8 ≠ 0#8 ∧
    ∀ r ∈ commandRows, r.selects 0x0A00FFFF#32 = false := by decide

theorem witness_rowSelectsItsCommand : (⟨"BITB", 0x04000000#32, 0xFFFFFFFE#32⟩ : CommandRow) ∈ commandRows ∧
    CommandRow.selects ⟨"BITB", 0x04000000#32, 0xFFFFFFFE#32⟩ 0x04000001#32 = true ∧
    CommandRow.selects ⟨"BITB", 0x04000000#32, 0xFFFFFFFE#32⟩ 0x04000002#32 = false := by decide

/-- The three grounds of R88, each alone, and a legal word beside them. -/
theorem witness_illegalWordOnlySetsErrCmd :
    illegalWord 0x0A000000#32 ∧ illegalWord 0x01010000#32 ∧ illegalWord 0x04000002#32 ∧
      illegalWord 0x08000001#32 ∧ illegalWord 0x07000100#32 ∧ ¬ illegalWord 0x0900FFFF#32 := by decide

theorem witness_assemblerEmitsOnlyItsCommands : (SourceCommand.hexb 0xFF).wellFormed = true ∧
    (SourceCommand.hexb 0x100).wellFormed = false := by decide

theorem witness_rdLineReachesItsRegister : (RegName.table 255).toReadReg = some (.table 0xFF#8) ∧
    RegName.status.toReadReg = some .status := by decide

/-- Words of opcode 0x05 with a bit of RSV, and of IMM[15:8], set; of opcodes 0x08, 0x01 and 0x04 likewise. -/
theorem witness_encodings :
    (0x05010000#32 : Word).extractLsb' 24 8 = 0x05#8 ∧ (0x05010000#32 : Word).extractLsb' 8 16 ≠ 0#16 ∧
    (0x05000100#32 : Word).extractLsb' 8 16 ≠ 0#16 ∧
    (0x08000001#32 : Word).extractLsb' 24 8 = 0x08#8 ∧ (0x08000001#32 : Word).extractLsb' 0 24 ≠ 0#24 ∧
    (0x01800000#32 : Word).extractLsb' 24 8 = 0x01#8 ∧ (0x01800000#32 : Word).extractLsb' 16 8 ≠ 0#8 ∧
    (0x04000002#32 : Word).extractLsb' 24 8 = 0x04#8 ∧ (0x04000002#32 : Word).extractLsb' 1 23 ≠ 0#23 := by
  decide

/-- The three cases of the hex commands (R102): rejected, first, second; strict and permissive. -/
theorem witness_hexCommand_cases : strictMode.strict = true ∧ isHex 0x47#8 = false ∧
    (strictMode.strict = false ∨ isHex 0x46#8 = true) ∧ strictMode.half = false ∧
    (State.reset.strict = false ∨ isHex 0x47#8 = true) ∧ (pending true).half = true ∧
    (pending false).half = true ∧ (pending false).strict = false := by decide

theorem witness_flushEndsTheStream : State.reset.half = false ∧ (pending false).half = true ∧
    (pending false).strict = false ∧ (pending true).strict = true := by decide

theorem witness_checkComparesTheComplement : (withCrc 0x6F91#16).crc = 0x6F91#16 := by decide

/-- The ranges of R100 and R101 at their bounds. -/
theorem witness_digit_ranges : 0x41 ≤ (0x41#8 : Byte).toNat ∧ (0x40#8 : Byte).toNat < 0x41 ∧
    0x30 ≤ (0x30#8 : Byte).toNat ∧ (0x39#8 : Byte).toNat ≤ 0x39 ∧ (0x46#8 : Byte).toNat ≤ 0x46 ∧
    0x61 ≤ (0x61#8 : Byte).toNat ∧ (0x66#8 : Byte).toNat ≤ 0x66 := by decide

/-- R107 on the source's own string "4142", and on an odd one. -/
theorem witness_hexStringIsDecodedInOrder : State.reset.half = false ∧ State.reset.pairConsistent ∧
    State.reset.strict = false ∧ hexDecode [0x34#8, 0x31#8, 0x34#8, 0x32#8] = [0x41#8, 0x42#8] ∧
    hexDecode [0x34#8, 0x31#8, 0x34#8] = [0x41#8] := by
  refine ⟨rfl, fun _ => rfl, rfl, by decide, by decide⟩

theorem witness_mixedCommandsShareThePair : State.reset.half = false ∧ State.reset.strict = false ∧
    isHex 0x31#8 = true ∧ isHex 0x47#8 = false := by decide

theorem witness_strictMattersOnlyToTheDecoder :
    (∀ c, Instr.check 0#16 ≠ .hext c ∧ Instr.check 0#16 ≠ .hexb c ∧ Instr.check 0#16 ≠ .hexn c) ∧
      Instr.check 0#16 ≠ .flush ∧ isHex 0x61#8 = true := by simp; decide

theorem witness_onlyInitClearsErrors :
    nextOf (serveAccess (.write 0x000#12 4 0x08000000#32) { strictMode with errHex := true }) =
      some { strictMode with errHex := true, response := some .ok } ∧
    decode 0x08000000#32 ≠ .ok (.init 0#16) := by decide

/-- Each error bit rises somewhere (R162, R163, R161). -/
theorem witness_errorBitsRiseForTheirCause :
    ({ strictMode with port := [commandWrite 0x05000047#32] } : State).nextCommand = some (.hext 0x47#8) ∧
    ({ pending true with port := [commandWrite 0x08000000#32] } : State).nextCommand = some .flush ∧
    illegalWord 0x0A000000#32 := by decide

theorem witness_oneConditionPerStep :
    nextOf (serveAccess (.read 0x01C#12 4) State.reset) = some { State.reset with response := some .busError } ∧
    nextOf (serveAccess (.write 0x000#12 4 0x0A000000#32) State.reset) =
      some { State.reset with response := some .ok, errCmd := true } := by decide

/-- Each ground of rejection, and the accesses next to it that are admitted. -/
theorem witness_rejectedAccessChangesNothing :
    ¬ readable 0x000#12 ∧ readable 0x004#12 ∧ readable 0x018#12 ∧ ¬ readable 0x01C#12 ∧ ¬ readable 0x3FC#12 ∧
    readable 0x400#12 ∧ readable 0x7FC#12 ∧ ¬ readable 0x800#12 ∧ ¬ readable 0x00E#12 ∧ (2 : Nat) ≠ 4 ∧
    (0x008#12 : Offset) ≠ 0x000#12 ∧ (0x008#12 : Offset) ≠ 0x004#12 := by decide

theorem witness_readReturnsTheRegister : (0x400#12 : Offset).toNat % 4 = 0 ∧ 0x400 ≤ (0x400#12 : Offset).toNat ∧
    (0x7FC#12 : Offset).toNat ≤ 0x7FC ∧ (0x7FC#12 : Offset).extractLsb' 2 8 = 0xFF#8 := by decide

/-- The hypotheses of the statements about one step, on a state with a command and with an illegal word. -/
theorem witness_steps : (presented [commandWrite 0x02000041#32]).resetPin = false ∧
    (presented [commandWrite 0x02000041#32]).port = [.access (.write 0x000#12 4 0x02000041#32)] ∧
    decode 0x02000041#32 = .ok (.bytet 0x41#8) ∧ decode 0x0A000000#32 = .error .unknownOpcode := by decide

theorem witness_presentedWordRunsNext : decodeTableWord 32 0x02000041 = some (.bytet 0x41#8) := by decide

theorem witness_commandQueueRunsInOrder : [Instr.flush, .bytet 0x41#8] ≠ [] ∧
    (presented [commandWrite 0x08000000#32, commandWrite 0x02000041#32]).port =
      [Instr.flush, .bytet 0x41#8].map (fun i => .access (.write 0x000#12 4 (encode i))) ++ [] := by decide

theorem witness_idleStepChangesNothing : State.reset.port = [] := by decide

theorem witness_resetWritesEveryElement :
    (presented [.reset true]).port = [.reset true] ∧
    ({ State.reset with resetPin := true, port := [commandWrite 0#32] } : State).resetPin = true ∧
    (presented [.reset true, commandWrite 0#32, .reset false]).port =
      .reset true :: [Access.write 0x000#12 4 0#32].map .access ++ .reset false :: [] := by decide

/-- A state with a pending pair and one held in reset both meet the invariant and take a step. -/
theorem witness_stepKeepsInvariant : (pending true).Inv ∧ nextOf (step (pending true)) = some (pending true) ∧
    ({ State.reset with resetPin := true } : State).Inv := by
  refine ⟨⟨fun h => ?_, fun h => ?_⟩, by decide, ⟨fun _ => rfl, fun _ => rfl⟩⟩
  · exact absurd h (by decide)
  · exact absurd h (by decide)

/-- Each element changes over some step that does not assert reset. -/
theorem witness_elementsHaveOnlyTheirWriters :
    (∃ t, nextOf (step (presented [commandWrite 0x02000041#32])) = some t ∧ t.crc ≠ State.reset.crc) ∧
    (∃ t, nextOf (step (presented [.access (.write 0x004#12 4 1#32)])) = some t ∧ t.strict = true) ∧
    (∃ t, nextOf (step { pending false with port := [commandWrite 0x07000031#32] }) = some t ∧
      t.lastByte ≠ 0x00#8 ∧ t.half = false) ∧
    (∃ t, nextOf (step (presented [commandWrite 0x09000000#32])) = some t ∧ t.matchFlag = true) ∧
    ¬ (presented [commandWrite 0x02000041#32]).nextIsReset := by
  refine ⟨⟨_, rfl, by decide⟩, ⟨_, rfl, by decide⟩, ⟨_, rfl, by decide⟩, ⟨_, rfl, by decide⟩, ?_⟩
  simp [State.nextIsReset, presented, commandWrite]

theorem witness_crcCommandsDependOnCrcAlone : (pending true).crc = State.reset.crc ∧ pending true ≠ State.reset := by
  decide

/-- Offsets outside an exception list exist (R33's frames). -/
theorem witness_windowKept : (0x014#12 : Offset) ∉ [0x00C#12, 0x010#12] := by decide

end Sys2Proof.Tests
end

section
/-! PROOFS. The addresses of the register window and its offsets (R6, R50). -/

namespace Sys2Proof.Machine

theorem base_mod_4096 : Config.base % 4096 = 0 := by
  rw [Config.base, Config.windowSize, Nat.mul_mod_left]

@[simp] theorem windowOffset_busAddress (off : Offset) : windowOffset (busAddress off) = some off := by
  have below : off.toNat < Config.windowSize := off.isLt
  have inWindow : Config.base ≤ busAddress off ∧ busAddress off < Config.base + Config.windowSize :=
    ⟨Nat.le_add_right _ _, Nat.add_lt_add_left below _⟩
  have distance : busAddress off - Config.base = off.toNat := Nat.add_sub_cancel_left _ _
  rw [windowOffset, if_pos inWindow, distance, BitVec.ofNat_toNat, BitVec.setWidth_eq]

/-- An address the window holds lies less than 4096 above BASE, so its 12-bit offset loses nothing of the
distance. -/
theorem eq_busAddress_of_windowOffset {addr : Nat} {off : Offset} (h : windowOffset addr = some off) :
    addr = busAddress off := by
  unfold windowOffset at h
  split at h
  next inWindow =>
    obtain ⟨lower, upper⟩ := inWindow
    have below : addr - Config.base < 2 ^ 12 := by rw [Config.windowSize] at upper; omega
    rw [← Option.some.inj h, busAddress, BitVec.toNat_ofNat, Nat.mod_eq_of_lt below, Nat.add_sub_cancel' lower]
  next => contradiction

theorem windowOffset_eq_some_iff (addr : Nat) (off : Offset) :
    windowOffset addr = some off ↔ addr = busAddress off :=
  ⟨eq_busAddress_of_windowOffset, fun h => h ▸ windowOffset_busAddress off⟩

/-- Settles O43: an offset's address is in the window and gives the offset back, and an address in the window
is less than 4096 above BASE, so its offset determines it. -/
theorem windowAddressesAreItsOffsets : Obligations.WindowAddressesAreItsOffsets :=
  ⟨base_mod_4096, windowOffset_busAddress, windowOffset_eq_some_iff⟩

end Sys2Proof.Machine
end

section
/-! PROOFS. The invariant of the block: reset meets it (R25, R180) and every step keeps it. -/

namespace Sys2Proof.Machine

@[simp] theorem after_resetPin (i : Instr) (s : State) : (after i s).resetPin = s.resetPin := by
  obtain ⟨_, resetPin, _, _⟩ := after_keeps i s
  exact resetPin

@[simp] theorem after_strict (i : Instr) (s : State) : (after i s).strict = s.strict := by
  obtain ⟨_, _, _, strict⟩ := after_keeps i s
  exact strict

/-- Feeding the completed byte to a CRC path writes at most `crc` (R103, R104). -/
theorem feedByte_eq_loadCrc (path : Crc → Byte → Crc) (r : State × Option Byte) :
    ∃ v, feedByte path r = loadCrc v r.1 := by
  obtain ⟨s, _ | b⟩ := r
  · exact ⟨s.crc, rfl⟩
  · exact ⟨path s.crc b, rfl⟩

/-- A rejected character keeps the pair, a first one sets HALF, a second one clears HALF and HINIB (R102). -/
theorem hexAccept_pairConsistent (c : Byte) {s : State} (h : s.pairConsistent) :
    (hexAccept c s).1.pairConsistent := by
  obtain ⟨_, _, hx⟩ | ⟨_, _, hx⟩ | ⟨_, _, hx⟩ := hexAccept_cases c s <;> rw [hx]
  · exact h
  · exact fun half => absurd half (by simp)
  · exact fun _ => rfl

theorem feedByte_pairConsistent (path : Crc → Byte → Crc) {r : State × Option Byte}
    (h : r.1.pairConsistent) : (feedByte path r).pairConsistent := by
  obtain ⟨v, hv⟩ := feedByte_eq_loadCrc path r
  rw [hv]
  exact h

/-- R25 over one command. -/
theorem after_pairConsistent (i : Instr) {s : State} (h : s.pairConsistent) :
    (after i s).pairConsistent := by
  cases i with
  | hext c | hexb c => exact feedByte_pairConsistent _ (hexAccept_pairConsistent c h)
  | hexn c => exact hexAccept_pairConsistent c h
  | flush =>
    cases hh : s.half with
    | false => rwa [after, exec, execFlush_idle hh]
    | true =>
      rw [after, exec, execFlush_pending hh]
      exact fun _ => rfl
  | init _ => exact fun _ => rfl
  | nop | bytet _ | byteb _ | bitb _ | check _ => exact h

/-- With the reset input released only R25 is left of the invariant. -/
theorem inv_of_released {s : State} (released : s.resetPin = false) (pair : s.pairConsistent) : s.Inv :=
  ⟨pair, fun asserted => by simp [released] at asserted⟩

/-- Settles O51: nothing is pending after reset, and the reset input is released. -/
theorem resetStateMeetsInvariant : Obligations.ResetStateMeetsInvariant :=
  ⟨inv_of_released rfl fun _ => rfl, rfl, rfl, rfl⟩

/-- The invariant says nothing of the tape. -/
theorem inv_with_port {s : State} (h : s.Inv) (p : List Input) : ({ s with port := p } : State).Inv :=
  ⟨h.pair, fun asserted => congrArg (fun t : State => { t with port := p }) (h.held asserted)⟩

/-- The invariant says nothing of the port's answer. -/
theorem inv_respond {s : State} (h : s.Inv) (r : Option Response) : (respond r s).Inv :=
  ⟨h.pair, fun asserted => congrArg (respond r) (h.held asserted)⟩

/-- Serving an input keeps the invariant: asserting reset writes every element, while reset is asserted no
access reaches the block, and otherwise it is the pair of R25 alone that has to be kept. -/
theorem serveInput_keeps_inv {x : Input} {s t : State} (h : s.Inv) (ht : serveInput x s = .next t) : t.Inv := by
  obtain ⟨_, hx⟩ | ⟨_, hx⟩ | ⟨_, _, _, hx⟩ | ⟨_, r, _, _, hx, _⟩ | ⟨v, _, released, hx⟩ |
    ⟨w, i, _, released, _, hx⟩ | ⟨w, e, _, released, _, hx⟩ := serveInput_cases x s
  all_goals
    rw [hx] at ht
    cases ht
  · exact ⟨fun _ => rfl, fun _ => rfl⟩
  · exact inv_of_released rfl h.pair
  · exact inv_respond h none
  · exact inv_respond h (some r)
  · exact inv_of_released released h.pair
  · exact inv_of_released ((after_resetPin i _).trans released) (after_pairConsistent i h.pair)
  · exact inv_of_released released h.pair

/-- Settles O52: an idle step keeps the state, and any other serves the input at the head of the tape. -/
theorem stepKeepsInvariant : Obligations.StepKeepsInvariant := by
  intro s t h ht
  cases hp : s.port with
  | nil =>
    rw [step_idle hp] at ht
    cases ht
    exact h
  | cons x rest =>
    rw [step_input hp] at ht
    exact serveInput_keeps_inv (inv_with_port h rest) ht

end Sys2Proof.Machine
end

section
/-! PROOFS. Reset (R33, R180): what asserting it writes, accesses while it is asserted, its release. -/

namespace Sys2Proof.Machine

theorem step_reset_asserted {s : State} {rest : List Input} (h : s.port = .reset true :: rest) :
    step s = .next { State.reset with port := rest, resetPin := true } := by
  rw [step_input h]
  rfl

theorem step_reset_released {s : State} {rest : List Input} (h : s.port = .reset false :: rest) :
    step s = .next { s with port := rest, resetPin := false, response := none } := by
  rw [step_input h]
  rfl

theorem step_held {s : State} {a : Access} {rest : List Input} (hr : s.resetPin = true)
    (hp : s.port = .access a :: rest) : step s = .next { s with port := rest, response := none } := by
  rw [step_input hp, serveInput_held (s := { s with port := rest }) hr]
  rfl

/-- Any number of accesses while reset is asserted leave the tape alone changed. -/
theorem runSteps_held (as : List Access) (rest : List Input) (k : Nat) {s : State} (hr : s.resetPin = true)
    (hq : s.response = none) (hp : s.port = as.map .access ++ rest) :
    runSteps (as.length + k) s = runSteps k { s with port := rest } := by
  induction as generalizing s with
  | nil =>
    have same : { s with port := rest } = s := by
      rw [← List.nil_append rest, ← List.map_nil (f := Input.access), ← hp]
    rw [same, List.length_nil, Nat.zero_add]
  | cons a as ih =>
    have tape : s.port = .access a :: (as.map .access ++ rest) := hp
    rw [List.length_cons, Nat.add_right_comm, runSteps_succ _ (step_held hr tape)]
    rw [ih (s := { s with port := as.map .access ++ rest, response := none }) hr rfl rfl, hq]

/-- Settles O50: an assertion, the accesses dropped while it lasts, and the release, in that order. -/
theorem resetWritesEveryElement : Obligations.ResetWritesEveryElement := by
  refine ⟨⟨rfl, rfl, rfl, rfl, rfl, rfl, rfl, rfl, rfl⟩, fun s rest => step_reset_asserted,
    fun s a rest => step_held, fun s as rest hp => ?_⟩
  have tape : s.port = .reset true :: (as.map .access ++ .reset false :: rest) := hp
  rw [runSteps_succ (as.length + 1) (step_reset_asserted tape),
    runSteps_held as (.reset false :: rest) 1 rfl rfl rfl, runSteps_succ 0 (step_reset_released rfl)]
  rfl

end Sys2Proof.Machine
end

section
/-! PROOFS. The writers of each element over a step (R20, R22, R26, R27, R33). -/

namespace Sys2Proof.Machine

/-- Settles O53: the writers of a command are `after_writers`; of the other inputs only a CTRL write and
reset reach an element that the statement names. -/
theorem elementsHaveOnlyTheirWriters : Obligations.ElementsHaveOnlyTheirWriters := by
  intro s t ht notReset
  obtain ⟨_, _, hs⟩ | ⟨isReset, _, hs⟩ | ⟨_, _, ⟨r, b, hs⟩, _⟩ | ⟨_, _, ⟨v, hv, hs⟩, _⟩ |
    ⟨w, i, rest, _, _, _, _, hi, hs⟩ | ⟨w, e, rest, _, _, _, _, _, hs⟩ := step_cases s
  all_goals
    rw [hs] at ht
    cases ht
  · simp
  · exact absurd isReset notReset
  · simp
  · simpa using fun _ => ⟨v, hv, rfl⟩
  · obtain ⟨crc, pair, matchFlag, lastByte⟩ := after_writers i s
    refine ⟨fun h => ⟨i, hi, crc h⟩, fun h => absurd (after_strict i s) h, fun h => ⟨i, hi, pair h⟩,
      fun h => ?_, fun h => ?_⟩
    · obtain ⟨v, hv⟩ := matchFlag h
      exact ⟨i, v, hi, hv⟩
    · obtain ⟨half, c, hc⟩ := lastByte h
      exact ⟨half, i, c, hi, hc⟩
  · simp

end Sys2Proof.Machine
end

section
/-! PROOFS. Noninterference: what the effect of a command does not depend on (R22, R24). -/

namespace Sys2Proof.Machine

open Sys2Proof.Spec

/-- Only the hex commands and FLUSH read STRICT (R22). -/
theorem after_writeStrict {i : Instr} (hex : ∀ c, i ≠ .hext c ∧ i ≠ .hexb c ∧ i ≠ .hexn c) (flush : i ≠ .flush)
    (b : Bool) (s : State) : after i (writeStrict b s) = writeStrict b (after i s) := by
  cases i with
  | hext c => exact absurd rfl (hex c).1
  | hexb c => exact absurd rfl (hex c).2.1
  | hexn c => exact absurd rfl (hex c).2.2
  | flush => exact absurd rfl flush
  | nop | init _ | bytet _ | byteb _ | bitb _ | check _ => rfl

/-- A hex digit is taken alike in both modes (R102). -/
theorem hexAccept_writeStrict {c : Byte} (hc : isHex c = true) (b : Bool) (s : State) :
    hexAccept c (writeStrict b s) = (writeStrict b (hexAccept c s).1, (hexAccept c s).2) := by
  cases hh : s.half with
  | false => rw [hexAccept_first (.inr hc) hh, hexAccept_first (s := writeStrict b s) (.inr hc) hh]; rfl
  | true => rw [hexAccept_second (.inr hc) hh, hexAccept_second (s := writeStrict b s) (.inr hc) hh]; rfl

theorem feedByte_writeStrict (path : Crc → Byte → Crc) (b : Bool) (r : State × Option Byte) :
    feedByte path (writeStrict b r.1, r.2) = writeStrict b (feedByte path r) := by
  obtain ⟨s, _ | _⟩ := r <;> rfl

/-- On a hex digit the hex commands do the same in both modes (D26). -/
theorem after_hex_writeStrict {i : Instr} {c : Byte} (hc : isHex c = true)
    (hi : i = .hext c ∨ i = .hexb c ∨ i = .hexn c) (b : Bool) (s : State) :
    after i (writeStrict b s) = writeStrict b (after i s) := by
  obtain rfl | rfl | rfl := hi
  · simp only [after, exec, execHext, hexAccept_writeStrict hc, feedByte_writeStrict]
  · simp only [after, exec, execHexb, hexAccept_writeStrict hc, feedByte_writeStrict]
  · simp only [after, exec, execHexn, hexAccept_writeStrict hc]

theorem hexAccept_errHex {c : Byte} (hc : isHex c = true) (s : State) :
    (hexAccept c s).1.errHex = s.errHex := by
  obtain ⟨_, notHex, _⟩ | ⟨_, _, hx⟩ | ⟨_, _, hx⟩ := hexAccept_cases c s
  · simp [hc] at notHex
  · rw [hx, holdNibble_errHex]
  · rw [hx, completePair_errHex]

/-- A hex digit raises no InvalidHexDigit (R162). -/
theorem after_hex_errHex {i : Instr} {c : Byte} (hc : isHex c = true)
    (hi : i = .hext c ∨ i = .hexb c ∨ i = .hexn c) (s : State) : (after i s).errHex = s.errHex := by
  have feed (path : Crc → Byte → Crc) : (feedByte path (hexAccept c s)).errHex = s.errHex := by
    obtain ⟨v, hv⟩ := feedByte_eq_loadCrc path (hexAccept c s)
    rw [hv, loadCrc_errHex, hexAccept_errHex hc]
  obtain rfl | rfl | rfl := hi
  · exact feed tableStep
  · exact feed bytewiseStep
  · exact hexAccept_errHex hc s

/-- Settles O33: STRICT passes through the commands that do not read it, and through the hex commands on a
hex digit. -/
theorem strictMattersOnlyToTheDecoder : Obligations.StrictMattersOnlyToTheDecoder := by
  refine ⟨fun s i b hex flush => ⟨after i s, exec_next i s, after_strict i s, ?_⟩,
    fun s i b c hc hi => ⟨after i s, exec_next i s, after_hex_errHex hc hi s, ?_⟩⟩
  · exact (exec_next i (writeStrict b s)).trans (congrArg _ (after_writeStrict hex flush b s))
  · exact (exec_next i (writeStrict b s)).trans (congrArg _ (after_hex_writeStrict hc hi b s))

/-- `t` is `s` but for the three sticky error bits. -/
def EqUpToErrors (s t : State) : Prop := ∃ h o c, t = withErrors h o c s

theorem eqUpToErrors_refl (s : State) : EqUpToErrors s s := ⟨_, _, _, rfl⟩

/-- Clearing the error bits of two such states makes them equal. -/
theorem withErrors_eq_of_eqUpToErrors {s t : State} (hst : EqUpToErrors s t) (h o c : Bool) :
    withErrors h o c s = withErrors h o c t := by
  obtain ⟨_, _, _, rfl⟩ := hst
  rfl

/-- The character step reads no error bit (R102). -/
theorem hexAccept_eqUpToErrors (c : Byte) {s t : State} (hst : EqUpToErrors s t) :
    EqUpToErrors (hexAccept c s).1 (hexAccept c t).1 ∧ (hexAccept c t).2 = (hexAccept c s).2 := by
  obtain ⟨h, o, e, rfl⟩ := hst
  obtain ⟨hs, hc, hx⟩ | ⟨hc, hh, hx⟩ | ⟨hc, hh, hx⟩ := hexAccept_cases c s <;> rw [hx]
  · rw [hexAccept_rejected (s := withErrors h o e s) hs hc]
    exact ⟨⟨true, o, e, rfl⟩, rfl⟩
  · rw [hexAccept_first (s := withErrors h o e s) hc hh]
    exact ⟨⟨h, o, e, rfl⟩, rfl⟩
  · rw [hexAccept_second (s := withErrors h o e s) hc hh]
    exact ⟨⟨h, o, e, rfl⟩, rfl⟩

theorem feedByte_eqUpToErrors (path : Crc → Byte → Crc) {r q : State × Option Byte}
    (hst : EqUpToErrors r.1 q.1 ∧ q.2 = r.2) : EqUpToErrors (feedByte path r) (feedByte path q) := by
  obtain ⟨⟨h, o, e, ht⟩, hb⟩ := hst
  rw [show q = (withErrors h o e r.1, r.2) from Prod.ext ht hb]
  obtain ⟨s, _ | _⟩ := r <;> exact ⟨h, o, e, rfl⟩

/-- No command reads an error bit but to pass it on (R24). -/
theorem after_eqUpToErrors (i : Instr) {s t : State} (hst : EqUpToErrors s t) :
    EqUpToErrors (after i s) (after i t) := by
  cases i with
  | hext c | hexb c => exact feedByte_eqUpToErrors _ (hexAccept_eqUpToErrors c hst)
  | hexn c => exact (hexAccept_eqUpToErrors c hst).1
  | flush =>
    obtain ⟨h, o, c, rfl⟩ := hst
    cases hh : s.half with
    | false =>
      rw [after, after, exec, exec, execFlush_idle hh, execFlush_idle (s := withErrors h o c s) hh]
      exact ⟨h, o, c, rfl⟩
    | true =>
      rw [after, after, exec, exec, execFlush_pending hh, execFlush_pending (s := withErrors h o c s) hh]
      cases hs : s.strict with
      | false => exact ⟨h, o, c, by simp [withErrors, hs, dropNibble]⟩
      | true => exact ⟨h, true, c, by simp [withErrors, hs, dropNibble, raise]⟩
  | init _ => obtain ⟨h, o, c, rfl⟩ := hst; exact eqUpToErrors_refl _
  | nop | bytet _ | byteb _ | bitb _ | check _ =>
    obtain ⟨h, o, c, rfl⟩ := hst
    exact ⟨h, o, c, rfl⟩

/-- Settles O34: every command completes, and states equal but for the error bits stay so. -/
theorem errorBitsNeverBlockACommand : Obligations.ErrorBitsNeverBlockACommand := by
  intro s i h o c
  have same : EqUpToErrors (after i s) (after i (withErrors h o c s)) := after_eqUpToErrors i ⟨h, o, c, rfl⟩
  exact ⟨_, _, exec_next i s, exec_next i _, withErrors_eq_of_eqUpToErrors same false false false⟩

end Sys2Proof.Machine
end

section
/-! PROOFS. What the registers of the window show, and which of them a command leaves (R23, R33, R53, R66). -/

namespace Sys2Proof.Machine

open Sys2Proof.Spec

/-- A field shown as a 32-bit word reads 0 above its width (R66). -/
theorem extractLsb'_setWidth_unused {w : Nat} (x : BitVec w) (n : Nat) :
    (x.setWidth 32).extractLsb' w n = 0#n := by
  ext k hk
  simp [BitVec.getLsbD_of_ge]

/-- STATUS bits 4:0 are the five flags (R23). -/
theorem statusWord_flags (s : State) :
    (statusWord s).getLsbD 0 = s.errHex ∧ (statusWord s).getLsbD 1 = s.errOdd ∧
      (statusWord s).getLsbD 2 = s.errCmd ∧ (statusWord s).getLsbD 3 = s.half ∧
      (statusWord s).getLsbD 4 = s.matchFlag := by
  simp only [statusWord, BitVec.getLsbD_append]
  simp

/-- STATUS above the flags: three zeros, HINIB, and zeros to the top (R23, R66). -/
theorem statusWord_fields (s : State) :
    (statusWord s).extractLsb' 5 3 = 0#3 ∧ (statusWord s).extractLsb' 8 4 = s.hinib ∧
      (statusWord s).extractLsb' 12 20 = 0#20 := by
  refine ⟨?_, ?_, ?_⟩
  all_goals
    ext k hk
    simp only [statusWord, BitVec.getElem_extractLsb', BitVec.getLsbD_append]
    grind

/-- Settles O41: STATUS is its fields laid side by side, and every other register is a field extended by 0. -/
theorem unusedRegisterBitsReadZero : Obligations.UnusedRegisterBitsReadZero := by
  intro s
  obtain ⟨h0, h1, h2, h3, h4⟩ := statusWord_flags s
  exact ⟨⟨h0, h1, h2, h3, h4, statusWord_fields s⟩, extractLsb'_setWidth_unused _ 31,
    extractLsb'_setWidth_unused _ 16, extractLsb'_setWidth_unused _ 16, extractLsb'_setWidth_unused _ 24,
    fun _ => extractLsb'_setWidth_unused _ 16⟩

/-- R52 puts `T[i]` at 0x400 + 4*i. -/
theorem table_offset (i : Byte) : (ReadReg.table i).offset = BitVec.ofNat 12 (0x400 + 4 * i.toNat) := by
  rw [ReadReg.offset, BitVec.ofNat_add, BitVec.ofNat_mul, BitVec.ofNat_toNat, BitVec.mul_comm,
    BitVec.shiftLeft_eq_mul_twoPow]
  rfl

/-- R51 admits the offset of every register. -/
theorem offset_aligned (r : ReadReg) : r.offset.toNat % 4 = 0 := by
  cases r with
  | table i =>
    rw [table_offset, BitVec.toNat_ofNat]
    omega
  | ctrl | status | crc | result | lastByte | param => rfl

/-- A read of a register at its own offset answers the register (R52, R53). -/
theorem memRead_offset (r : ReadReg) (s : State) : memRead r.offset 4 s = .ok (readReg r s) := by
  obtain ⟨q, _, _, hat, hr⟩ | ⟨refused, _⟩ := resolveRead_cases r.offset 4
  · rw [readAt_offset, Option.some.injEq] at hat
    subst hat
    simp only [memRead, hr]
  · exact absurd ⟨rfl, offset_aligned r, by simp [readAt_offset]⟩ refused

/-- Two states whose registers agree, but for those listed, agree in the window but at their offsets. -/
theorem windowKept_of_readReg {regs : List ReadReg} {s t : State}
    (h : ∀ r, r ∉ regs → readReg r t = readReg r s) : windowKept (regs.map ReadReg.offset) s t := by
  intro off n hoff
  obtain ⟨r, _, _, hat, hr⟩ | ⟨_, hr⟩ := resolveRead_cases off n
  · simp only [memRead, hr]
    obtain rfl | ⟨i, rfl⟩ := readAt_eq_some hat
    · rw [h r fun hm => hoff (List.mem_map_of_mem hm)]
    · rfl
  · simp only [memRead, hr]

/-- The frame of a command, from the three parts of the block that it can change and the window shows. -/
theorem framedBy_of_kept {i : Instr} {regs : List ReadReg}
    (status : .status ∉ regs → ∀ s, statusWord (after i s) = statusWord s)
    (crc : .crc ∉ regs ∨ .result ∉ regs → ∀ s, (after i s).crc = s.crc)
    (lastByte : .lastByte ∉ regs → ∀ s, (after i s).lastByte = s.lastByte) :
    framedBy i (regs.map ReadReg.offset) := by
  intro s
  obtain ⟨port, pin, response, strict⟩ := after_keeps i s
  refine ⟨after i s, exec_next i s, ⟨port, pin, response⟩, strict, windowKept_of_readReg fun r hr => ?_⟩
  cases r with
  | ctrl => simp only [readReg, ctrlWord, strict]
  | status => exact status hr s
  | crc => simp only [readReg, crc (.inl hr) s]
  | result => simp only [readReg, finalChecksum, crc (.inr hr) s]
  | lastByte => simp only [readReg, lastByte hr s]
  | param | table _ => rfl

/-- FLUSH and HEXN are no writers of `crc` (R20, R105, R106). -/
theorem after_crc_of_flush_or_hexn {i : Instr} (hi : i = .flush ∨ ∃ c, i = .hexn c) (s : State) :
    (after i s).crc = s.crc := by
  by_contra changed
  obtain ⟨crc, _⟩ := after_writers i s
  have writer := crc changed
  obtain rfl | ⟨c, rfl⟩ := hi <;> simp at writer

theorem after_flush_lastByte (s : State) : (after .flush s).lastByte = s.lastByte := by
  by_contra changed
  obtain ⟨_, _, _, lastByte⟩ := after_writers .flush s
  simpa using lastByte changed

/-- Settles O54: each command's frame from what it keeps. -/
theorem commandsKeepTheRestOfTheWindow : Obligations.CommandsKeepTheRestOfTheWindow := by
  refine ⟨?nop, fun v => ?init, fun b => ?bytet, fun b => ?byteb, fun d => ?bitb, fun c => ?hext, fun c => ?hexb,
    fun c => ?hexn, ?flush, fun v => ?check⟩
  case nop => exact framedBy_of_kept (regs := []) (fun _ _ => rfl) (fun _ _ => rfl) (fun _ _ => rfl)
  case init =>
    exact framedBy_of_kept (regs := [.status, .crc, .result]) (by simp) (by simp) (fun _ _ => rfl)
  case bytet | byteb | bitb =>
    exact framedBy_of_kept (regs := [.crc, .result]) (fun _ _ => rfl) (by simp) (fun _ _ => rfl)
  case hext | hexb =>
    exact framedBy_of_kept (regs := [.status, .crc, .result, .lastByte]) (by simp) (by simp) (by simp)
  case hexn =>
    exact framedBy_of_kept (regs := [.status, .lastByte]) (by simp)
      (fun _ => after_crc_of_flush_or_hexn (.inr ⟨c, rfl⟩)) (by simp)
  case flush =>
    exact framedBy_of_kept (regs := [.status]) (by simp) (fun _ => after_crc_of_flush_or_hexn (.inl rfl))
      (fun _ => after_flush_lastByte)
  case check => exact framedBy_of_kept (regs := [.status]) (by simp) (fun _ _ => rfl) (fun _ _ => rfl)

end Sys2Proof.Machine
end

section
/-! PROOFS. The table ROM: its listing is its derivation (R30), and it is linear (R31). -/

namespace Sys2Proof.Machine

open Sys2Proof.Spec

/-- `n` bit steps are a fold over the bit indices from `k` on. -/
theorem bitSteps_eq_foldl (n k : Nat) (crc : Crc) (b : Byte) :
    bitSteps n k crc b = (List.range' k n).foldl (fun c j => bitStep c (b.getLsbD j)) crc := by
  induction n generalizing k crc with
  | zero => rfl
  | succ n ih => rw [bitSteps, ih, List.range'_succ, List.foldl_cons]

/-- R131 as a fold over the eight bit indices. -/
theorem bytewiseStep_eq_eightSteps (crc : Crc) (b : Byte) : bytewiseStep crc b = eightSteps crc b := by
  rw [bytewiseStep, bitSteps_eq_foldl, eightSteps, List.range_eq_range']

/-- One bit step is linear over XOR in the register and the bit together (R130). -/
theorem bitStep_xor (c1 c2 : Crc) (d1 d2 : Bool) :
    bitStep (c1 ^^^ c2) (d1 ^^ d2) = bitStep c1 d1 ^^^ bitStep c2 d2 := by
  have lsb : (d1 ^^ d2 ^^ (c1 ^^^ c2).getLsbD 0) = ((d1 ^^ c1.getLsbD 0) ^^ (d2 ^^ c2.getLsbD 0)) := by
    rw [BitVec.getLsbD_xor, Bool.xor_assoc, Bool.xor_assoc, Bool.xor_left_comm d2]
  have polyTwice (x y p : Crc) : x ^^^ y = x ^^^ p ^^^ (y ^^^ p) := by
    rw [BitVec.xor_assoc, BitVec.xor_comm y p, ← BitVec.xor_assoc p, BitVec.xor_self, BitVec.zero_xor]
  simp only [bitStep, lsb, BitVec.ushiftRight_xor_distrib]
  cases d1 ^^ c1.getLsbD 0 <;> cases d2 ^^ c2.getLsbD 0
  · rfl
  · exact BitVec.xor_assoc _ _ _
  · change c1 >>> 1 ^^^ c2 >>> 1 ^^^ Config.crc16Poly = c1 >>> 1 ^^^ Config.crc16Poly ^^^ c2 >>> 1
    ac_rfl
  · exact polyTwice _ _ _

theorem bitSteps_xor (n k : Nat) (c1 c2 : Crc) (b1 b2 : Byte) :
    bitSteps n k (c1 ^^^ c2) (b1 ^^^ b2) = bitSteps n k c1 b1 ^^^ bitSteps n k c2 b2 := by
  induction n generalizing k c1 c2 with
  | zero => rfl
  | succ n ih => simp only [bitSteps, BitVec.getLsbD_xor, bitStep_xor, ih]

/-- The bitwise path is linear over XOR in the register and the byte together (R131). -/
theorem bytewiseStep_xor (c1 c2 : Crc) (b1 b2 : Byte) :
    bytewiseStep (c1 ^^^ c2) (b1 ^^^ b2) = bytewiseStep c1 b1 ^^^ bytewiseStep c2 b2 :=
  bitSteps_xor 8 0 c1 c2 b1 b2

/-- R30's listing, all sixteen rows of sixteen, is the derivation at each row label plus column. -/
theorem tableRows_eq_bytewiseStep :
    tableRows = (List.range 16).map fun row => (List.range 16).map fun col =>
      bytewiseStep 0x0000#16 (BitVec.ofNat 8 (16 * row + col)) := by
  decide

theorem tableEntry_eq_bytewiseStep (i : Byte) : tableEntry i = bytewiseStep 0x0000#16 i := by
  have row : i.toNat / 16 < 16 := by omega
  have col : i.toNat % 16 < 16 := by omega
  have index : 16 * (i.toNat / 16) + i.toNat % 16 = i.toNat := Nat.div_add_mod _ _
  rw [tableEntry, tableRows_eq_bytewiseStep]
  simp [List.getD_eq_getElem?_getD, row, col, index]

/-- Settles O23: the entries are the bitwise path from 0, and that path is linear. -/
theorem tableIsLinear : Obligations.TableIsLinear := by
  intro i j
  simp only [tableEntry_eq_bytewiseStep, ← bytewiseStep_xor, BitVec.xor_self]

/-- Settles O22: the listing is the derivation, TABLE shows its entry at its offset, and BYTEB from `crc` 0
computes it. -/
theorem tableIsItsDerivation : Obligations.TableIsItsDerivation := by
  refine ⟨fun i s => ⟨?_, ?_, _, execAll_next _ s, ?_⟩, by decide⟩
  · rw [tableEntry_eq_bytewiseStep, bytewiseStep_eq_eightSteps]
  · rw [← table_offset, memRead_offset]
    rfl
  · exact (tableEntry_eq_bytewiseStep i).symm

end Sys2Proof.Machine
end

section
/-! PROOFS. One step of the tape: it serves the access at its head (R59), idles when it is empty (R188), runs command
words in order (R55, R60, R80), and always answers a next state (R160, R189). -/

namespace Sys2Proof.Machine

/-- Settles O44: with the reset input released the head of the tape is accepted. -/
theorem stepServesTheNextAccess : Obligations.StepServesTheNextAccess := by
  intro s a rest released tape
  rw [step_input tape, serveInput_accepted (s := { s with port := rest }) released]

theorem executeWord_of_decode_ok {w : Word} {i : Instr} (h : decode w = .ok i) (s : State) :
    executeWord w s = exec i s := by
  simp [executeWord, h]

theorem executeWord_of_decode_error {w : Word} {e : Illegal} (h : decode w = .error e) (s : State) :
    executeWord w s = .next (raise .illegalCommand s) := by
  simp [executeWord, h]

/-- A write to CMD at the head of the tape executes its word, once it is taken and answered (R55). -/
theorem step_cmd_write {s : State} {w : Word} {rest : List Input} (released : s.resetPin = false)
    (tape : s.port = commandWrite w :: rest) :
    step s = executeWord w { s with port := rest, response := some .ok } :=
  stepServesTheNextAccess s _ rest released tape

/-- Settles O45: the write executes its word, and the decoder tells a command from an illegal word (R80, R88). -/
theorem stepRunsTheDecodedCommand : Obligations.StepRunsTheDecodedCommand := by
  intro s w rest released tape
  refine ⟨fun i legal => ?_, fun e illegal => ?_⟩
  · rw [step_cmd_write released tape, executeWord_of_decode_ok legal]
  · rw [step_cmd_write released tape, executeWord_of_decode_error illegal]
    rfl

/-- A table-numbered command decodes as the 32-bit word that presenting it writes to CMD (R80, R81). -/
theorem decode_of_decodeTableWord {nbits w : Nat} {i : Instr} (h : decodeTableWord nbits w = some i) :
    decode (BitVec.ofNat 32 (w % 2 ^ nbits)) = .ok i := by
  by_cases fits : w % 2 ^ nbits < 2 ^ 32
  · have word : tableWord nbits w = some (BitVec.ofNat 32 (w % 2 ^ nbits)) := if_pos fits
    cases hd : decode (BitVec.ofNat 32 (w % 2 ^ nbits)) with
    | ok j => simpa [decodeTableWord, word, hd] using h
    | error e => simp [decodeTableWord, word, hd] at h
  · have noWord : tableWord nbits w = none := if_neg fits
    simp [decodeTableWord, noWord] at h

/-- Settles O46: the presented word is a write to CMD at the head of the tape. -/
theorem presentedWordRunsNext : Obligations.PresentedWordRunsNext := by
  intro s nbits w i h
  rw [step_cmd_write (s := s.withFetchWord nbits w) rfl rfl,
    executeWord_of_decode_ok (decode_of_decodeTableWord h)]
  rfl

/-- The word of a command decodes to it: its fields are the command's opcode and its operand (R85, R87). -/
theorem decode_encode (i : Instr) : decode (encode i) = .ok i := by
  cases i with
  | bytet b | byteb b | hext b | hexb b | hexn b =>
    exact (decode_commandWord _ _).trans (decodeByte_operand b _)
  | bitb d => exact (decode_commandWord _ _).trans (decodeBit_operand d _)
  | nop | flush | init _ | check _ => exact decode_commandWord _ _

/-- No command reads or writes the tape or the answer. -/
theorem after_with_tape (i : Instr) (s : State) (p : List Input) (q : Option Response) :
    after i { s with port := p, response := q } = { after i s with port := p, response := q } := by
  simpa only [after_resetPin] using after_with_surroundings i s p s.resetPin q

/-- A step over a command's own word runs the command (R55, R80). -/
theorem step_encode {i : Instr} {s : State} {rest : List Input} (released : s.resetPin = false)
    (tape : s.port = commandWrite (encode i) :: rest) :
    step s = .next { after i s with port := rest, response := some .ok } := by
  rw [step_cmd_write released tape, executeWord_of_decode_ok (decode_encode i), exec_next,
    after_with_tape i s rest (some .ok)]

/-- As many steps as there are commands at the head of the tape run them in order (R60). Each answers ok; where there is
none, the answer that stands has to be ok already. -/
theorem runSteps_commands (is : List Instr) (rest : List Input) {s : State} (released : s.resetPin = false)
    (answered : is = [] → s.response = some .ok)
    (tape : s.port = is.map (fun i => commandWrite (encode i)) ++ rest) :
    runSteps is.length s = .next (afterAll is { s with port := rest, response := some .ok }) := by
  induction is generalizing s with
  | nil =>
    have port : rest = s.port := tape.symm
    rw [port, ← answered rfl]
    rfl
  | cons i is ih =>
    have pin : (after i s).resetPin = false := (after_resetPin i s).trans released
    rw [List.length_cons, runSteps_succ _ (step_encode released tape), afterAll_cons,
      after_with_tape i s rest (some .ok)]
    exact ih (s := { after i s with port := _, response := some .ok }) pin (fun _ => rfl) rfl

/-- Settles O47, by induction on the commands. -/
theorem commandQueueRunsInOrder : Obligations.CommandQueueRunsInOrder := by
  intro is s rest nonempty released tape
  rw [runSteps_commands is rest released (fun h => absurd h nonempty) tape, execAll_next]

theorem step_next (s : State) : ∃ t, step s = .next t := by
  cases tape : s.port with
  | nil => exact ⟨s, step_idle tape⟩
  | cons x rest =>
    rw [step_input tape]
    exact serveInput_next x _

/-- Settles O49: every step answers a next state. -/
theorem machineNeverStops : Obligations.MachineNeverStops := by
  intro s k
  induction k generalizing s with
  | zero => exact ⟨s, rfl⟩
  | succ k ih =>
    obtain ⟨t, ht⟩ := step_next s
    rw [runSteps_succ k ht]
    exact ih t

/-- Settles O48: an idle step ends in the state it began in. -/
theorem idleStepChangesNothing : Obligations.IdleStepChangesNothing := by
  intro s k tape
  induction k with
  | zero => rfl
  | succ k ih => rw [runSteps_succ k (step_idle tape), ih]

end Sys2Proof.Machine
end

section
/-! PROOFS. Accesses to the register window: what a read returns (R53, R54), a write to CTRL (R56), and the accesses
that are rejected (R51, R57, R58, R160). -/

namespace Sys2Proof.Machine

open Sys2Proof.Spec

/-- A read that is not 32 bits wide or of an offset R52 does not let a host read raises BusError (R51, R58). -/
theorem resolveRead_rejected {off : Offset} {n : Nat} (h : n ≠ 4 ∨ ¬ readable off) :
    resolveRead off n = .error (.busError off) := by
  obtain ⟨r, width, aligned, hat, _⟩ | ⟨_, hr⟩ := resolveRead_cases off n
  · have unreadable : ¬ readable off := h.resolve_left (not_not_intro width)
    have noRegister : readAt off = none := (readAt_eq_none aligned).2 fun range => unreadable ⟨aligned, range⟩
    simp [noRegister] at hat
  · exact hr

theorem memRead_rejected {off : Offset} {n : Nat} (h : n ≠ 4 ∨ ¬ readable off) (s : State) :
    memRead off n s = .error (.busError off) := by
  simp only [memRead, resolveRead_rejected h]

theorem serveAccess_read_data {off : Offset} {n : Nat} {s : State} {v : Word} (h : memRead off n s = .ok v) :
    serveAccess (.read off n) s = .next { s with response := some (.data v) } := by
  simp only [serveAccess, h]
  rfl

theorem serveAccess_read_busError {off : Offset} {n : Nat} {s : State} {e : Fault}
    (h : memRead off n s = .error e) :
    serveAccess (.read off n) s = .next { s with response := some .busError } := by
  simp only [serveAccess, h]
  rfl

/-- Settles O38: the map of R52 leaves out exactly the offsets the statement writes out. -/
theorem rejectedAccessChangesNothing : Obligations.RejectedAccessChangesNothing := by
  intro s off n v
  refine ⟨fun h => ⟨memRead_rejected h s, serveAccess_read_busError (memRead_rejected h s)⟩, fun h => ?_⟩
  obtain ⟨_, rfl, rfl, _⟩ | ⟨_, rfl, rfl, _⟩ | ⟨hr, _, served⟩ := serveAccess_write off n v s
  · simp at h
  · simp at h
  · exact ⟨hr, served⟩

/-- STATUS is its fields extended by 0 (R23, R53). -/
theorem statusWord_eq_setWidth (s : State) :
    statusWord s = (s.hinib ++ 0b000#3 ++ BitVec.ofBool s.matchFlag ++ BitVec.ofBool s.half ++
      BitVec.ofBool s.errCmd ++ BitVec.ofBool s.errOdd ++ BitVec.ofBool s.errHex).setWidth 32 := by
  apply BitVec.eq_of_toNat_eq
  rw [BitVec.toNat_setWidth_of_le (by decide)]
  simp only [statusWord, BitVec.toNat_append]
  simp

/-- An aligned offset of the table's range is the offset of the entry its bits 9:2 name (R52). -/
theorem eq_table_offset {off : Offset} (aligned : off.toNat % 4 = 0) (lower : 0x400 ≤ off.toNat)
    (upper : off.toNat ≤ 0x7FC) : off = (ReadReg.table (off.extractLsb' 2 8)).offset := by
  apply BitVec.eq_of_toNat_eq
  rw [table_offset, BitVec.extractLsb'_toNat, BitVec.toNat_ofNat, Nat.shiftRight_eq_div_pow]
  omega

/-- Settles O39: each register is read at its own offset, and every other read is rejected. -/
theorem readReturnsTheRegister : Obligations.ReadReturnsTheRegister := by
  intro s
  refine ⟨memRead_offset .ctrl s, ?status, memRead_offset .crc s, memRead_offset .result s,
    memRead_offset .lastByte s, memRead_offset .param s, fun off aligned lower upper => ?table,
    fun off n h => memRead_rejected h s⟩
  case status => exact (memRead_offset .status s).trans (congrArg _ (statusWord_eq_setWidth s))
  case table =>
    have entry := memRead_offset (.table (off.extractLsb' 2 8)) s
    rwa [← eq_table_offset aligned lower upper] at entry

/-- MemRead raises no fault but BusError of its own offset (R53). -/
theorem eq_busError_of_memRead {off : Offset} {n : Nat} {s : State} {e : Fault} (h : memRead off n s = .error e) :
    e = .busError off := by
  obtain ⟨r, _, _, _, hr⟩ | ⟨_, hr⟩ := resolveRead_cases off n
  · simp [memRead, hr] at h
  · simpa [memRead, hr] using h.symm

/-- No register shows the answer to an access. -/
theorem readReg_with_response (r : ReadReg) (s : State) (q : Option Response) :
    readReg r { s with response := q } = readReg r s := by
  cases r <;> rfl

/-- MemRead looks at the block alone, not at the answer before (R54). -/
theorem memRead_with_response (off : Offset) (n : Nat) (s : State) (q : Option Response) :
    memRead off n { s with response := q } = memRead off n s := by
  simp only [memRead, readReg_with_response]

/-- Settles O40: the answer is MemRead's, which does not look at the answer before. -/
theorem readsHaveNoSideEffect : Obligations.ReadsHaveNoSideEffect := by
  intro s off n
  have again (q : Option Response) := memRead_with_response off n s q
  cases h : memRead off n s with
  | ok v =>
    exact ⟨.data v, serveAccess_read_data h, serveAccess_read_data ((again _).trans h), by simp, by simp⟩
  | error e =>
    obtain rfl := eq_busError_of_memRead h
    exact ⟨.busError, serveAccess_read_busError h, serveAccess_read_busError ((again _).trans h), by simp, by simp⟩

/-- Bit 0 of a word, as a Boolean and as a field. -/
theorem ofBool_getLsbD_zero (v : Word) : BitVec.ofBool (v.getLsbD 0) = v.extractLsb' 0 1 := by
  ext
  grind

/-- Settles O42: the write reaches CTRL, and CTRL reads STRICT (R22). -/
theorem ctrlWriteSetsStrictOnly : Obligations.CtrlWriteSetsStrictOnly := by
  intro s v
  refine ⟨_, rfl, rfl, (memRead_offset .ctrl _).trans ?_⟩
  rw [← ofBool_getLsbD_zero]
  rfl

end Sys2Proof.Machine
end

section
/-! PROOFS. The checksum in wire order: what CHECKLE accepts (R67, R142), and the residue it leaves in `crc`. -/

namespace Sys2Proof.Machine

/-- A 16-bit value is its two bytes. -/
theorem append_bytes (v : BitVec 16) : v.extractLsb' 8 8 ++ v.extractLsb' 0 8 = v :=
  BitVec.extractLsb'_append_extractLsb' (w := 8) (len := 8)

/-- Two bytes are a checksum in wire order when R67 reads them back as it. -/
theorem fieldBytes_eq_iff (f : BitVec 16) (f0 f1 : Byte) : fieldBytes f = [f0, f1] ↔ f = fieldValue f0 f1 := by
  constructor
  · intro h
    cases h
    exact (append_bytes f).symm
  · rintro rfl
    rw [fieldBytes, fieldValue, BitVec.extractLsb'_append_eq_left, BitVec.extractLsb'_append_eq_right]

/-- The complement's bytes in wire order are the complements of the two bytes. -/
theorem fieldBytes_not_append (hi lo : Byte) : fieldBytes (~~~(hi ++ lo)) = [~~~lo, ~~~hi] := by
  rw [fieldBytes_eq_iff, fieldValue, BitVec.not_append]

/-- R120 on the two bytes of the register: the high one is shifted down, the low one selects the entry. -/
theorem tableStep_append (hi lo b : Byte) :
    tableStep (hi ++ lo) b = (0x00#8 ++ hi) ^^^ tableEntry (lo ^^^ b) := by
  have shifted : (hi ++ lo) >>> 8 = 0x00#8 ++ hi := by
    rw [BitVec.ushiftRight_eq_extractLsb'_of_lt (by decide)]
    exact congrArg (0x00#8 ++ ·) BitVec.extractLsb'_append_eq_left
  have index : (hi ++ lo ^^^ b.setWidth 16).extractLsb' 0 8 = lo ^^^ b := by
    rw [BitVec.extractLsb'_xor, BitVec.extractLsb'_append_eq_right, BitVec.extractLsb'_setWidth_of_le (by decide),
      BitVec.extractLsb'_eq_self]
  rw [tableStep, shifted, index]

theorem xor_xor_not_self (x a : Byte) : x ^^^ a ^^^ ~~~x = ~~~a := by
  rw [← BitVec.not_xor_right, BitVec.xor_comm x a, BitVec.xor_assoc, BitVec.xor_self, BitVec.xor_zero]

/-- The register's two bytes cancel against their complements: the entries at 0xFF and 0x87 alone are left. -/
theorem crc16Table_fieldBytes_not (crc : Crc) : crc16Table (fieldBytes (~~~crc)) crc = 0xF0B8#16 := by
  obtain ⟨hi, lo, rfl⟩ : ∃ hi lo : Byte, crc = hi ++ lo := ⟨_, _, (append_bytes crc).symm⟩
  have first : tableStep (hi ++ lo) (~~~lo) = 0x0F#8 ++ (hi ^^^ 0x78#8) := by
    have entry : tableEntry (~~~0x00#8) = 0x0F#8 ++ 0x78#8 := rfl
    rw [tableStep_append, ← BitVec.not_xor_right, BitVec.xor_self, entry, BitVec.xor_append, BitVec.zero_xor]
  have second : tableStep (0x0F#8 ++ (hi ^^^ 0x78#8)) (~~~hi) = 0xF0B8#16 := by
    rw [tableStep_append, xor_xor_not_self]
    rfl
  rw [fieldBytes_not_append]
  simp only [crc16Table, List.foldl_cons, List.foldl_nil, first, second]

theorem crc16Table_append (bs cs : List Byte) (init : Crc) :
    crc16Table (bs ++ cs) init = crc16Table cs (crc16Table bs init) :=
  List.foldl_append

/-- Settles O29: CHECKLE compares with the value R67 reads, and a message's checksum always leaves the residue. -/
theorem appendedChecksumLeavesTheResidue : Obligations.AppendedChecksumLeavesTheResidue := by
  refine ⟨fun s f0 f1 => ?_, fun s init data => ⟨_, execAll_next _ s, ?_⟩⟩
  · have accepted : checksumMatches (fieldValue f0 f1) s = decide (fieldBytes (finalChecksum s) = [f0, f1]) := by
      simp only [fieldBytes_eq_iff, checksumMatches, beq_eq_decide]
    exact congrArg (fun b => Host.Outcome.next (writeMatch b s)) accepted
  · rw [afterAll_cons, afterAll_bytet, loadCrc_crc]
    change crc16Table _ init = _
    rw [crc16Table_append, crc16Table_fieldBytes_not]

end Sys2Proof.Machine
end

section
/-! PROOFS. The command words: decoding against encoding (R81, R85, R87), the rows of R85's map, the illegal words of
R88, and the assembler's lines (R90). -/

namespace Sys2Proof.Machine

open Sys2Proof.Spec

/-! ### Encode after decode -/

theorem encode_of_decodeNone {imm : BitVec 16} {i j : Instr} (h : decodeNone imm j = .ok i) {op : BitVec 8}
    (word : encode j = commandWord op 0x0000#16) : encode i = commandWord op imm := by
  obtain ⟨rfl, rfl⟩ := decodeNone_ok h
  exact word

theorem encode_of_decodeByte {imm : BitVec 16} {mk : Byte → Instr} {i : Instr} (h : decodeByte imm mk = .ok i)
    {op : BitVec 8} (word : ∀ b, encode (mk b) = commandWord op (0x00#8 ++ b)) : encode i = commandWord op imm := by
  obtain ⟨upper, rfl⟩ := decodeByte_ok h
  rw [word, imm_of_byte upper]

theorem encode_of_decodeBit {imm : BitVec 16} {mk : BitVec 1 → Instr} {i : Instr} (h : decodeBit imm mk = .ok i)
    {op : BitVec 8} (word : ∀ d, encode (mk d) = commandWord op (0#15 ++ d)) : encode i = commandWord op imm := by
  obtain ⟨upper, rfl⟩ := decodeBit_ok h
  rw [word, imm_of_bit upper]

/-- One branch on OP of the decoder: the command it answers has that OP. -/
theorem encode_of_branch {op k : BitVec 8} {imm : BitVec 16} {x y : Except Illegal Instr} {i : Instr}
    (h : (if op = k then x else y) = .ok i) (taken : x = .ok i → encode i = commandWord k imm)
    (other : y = .ok i → encode i = commandWord op imm) : encode i = commandWord op imm := by
  by_cases hk : op = k
  · rw [if_pos hk] at h
    rw [hk, taken h]
  · rw [if_neg hk] at h
    exact other h

/-- Decoding loses nothing of a word: OP names the command, RSV and the must-be-zero bits are 0, and the rest is the
operand (R85). -/
theorem encode_of_decode {w : Word} {i : Instr} (h : decode w = .ok i) : encode i = w := by
  by_cases rsv : rsvField w = 0x00#8
  · obtain ⟨op, imm, rfl⟩ : ∃ op imm, w = commandWord op imm := ⟨_, _, (commandWord_of_fields rsv).symm⟩
    rw [decode_commandWord] at h
    refine encode_of_branch h (fun nop => encode_of_decodeNone nop rfl) fun h => ?_
    refine encode_of_branch h (fun init => by cases init; rfl) fun h => ?_
    refine encode_of_branch h (fun bytet => encode_of_decodeByte bytet fun _ => rfl) fun h => ?_
    refine encode_of_branch h (fun byteb => encode_of_decodeByte byteb fun _ => rfl) fun h => ?_
    refine encode_of_branch h (fun bitb => encode_of_decodeBit bitb fun _ => rfl) fun h => ?_
    refine encode_of_branch h (fun hext => encode_of_decodeByte hext fun _ => rfl) fun h => ?_
    refine encode_of_branch h (fun hexb => encode_of_decodeByte hexb fun _ => rfl) fun h => ?_
    refine encode_of_branch h (fun hexn => encode_of_decodeByte hexn fun _ => rfl) fun h => ?_
    refine encode_of_branch h (fun flush => encode_of_decodeNone flush rfl) fun h => ?_
    refine encode_of_branch h (fun check => by cases check; rfl) fun unknown => ?_
    cases unknown
  · simp [decode_reserved rsv] at h

/-- Settles O1: operand types are the ranges of R90, and a command's word has the command's fields. -/
theorem decodeInvertsEncode : Obligations.DecodeInvertsEncode :=
  fun i => ⟨wellFormed_of_width i, decode_encode i⟩

/-- Settles O2: a word with a command is the word of its fields. -/
theorem encodeInvertsDecode : Obligations.EncodeInvertsDecode :=
  fun _ _ => encode_of_decode

/-- Settles O5: each word is the encoding of what it decodes to. -/
theorem specWordsDecodeAsWritten : Obligations.SpecWordsDecodeAsWritten :=
  ⟨decode_encode .nop, decode_encode (.init 0x1234#16), decode_encode (.bytet 0x41#8), decode_encode (.bitb 1#1),
    decode_encode (.hext 0x34#8), decode_encode .flush, decode_encode (.check 0x906E#16)⟩

/-! ### The rows of R85's map -/

/-- The row of a command selects its word. -/
theorem row_of_encode (i : Instr) : ∃ r ∈ commandRows, r.mnemonic = i.mnemonic ∧ r.selects (encode i) = true := by
  have row : Laws.RowOfWord.Statement i := by
    cases i with
    | nop => exact Laws.RowOfWord.nop
    | init v => exact Laws.RowOfWord.init v
    | bytet b => exact Laws.RowOfWord.bytet b
    | byteb b => exact Laws.RowOfWord.byteb b
    | bitb d => exact Laws.RowOfWord.bitb d
    | hext c => exact Laws.RowOfWord.hext c
    | hexb c => exact Laws.RowOfWord.hexb c
    | hexn c => exact Laws.RowOfWord.hexn c
    | flush => exact Laws.RowOfWord.flush
    | check v => exact Laws.RowOfWord.check v
  obtain ⟨r, hr, name, masked⟩ := row
  exact ⟨r, hr, name, beq_iff_eq.2 masked⟩

/-- A word whose upper bits are the match value is the match value over its operand. -/
theorem eq_append_of_masked {hi lo : Nat} {w : BitVec (hi + lo)} {m : BitVec hi}
    (masked : w &&& (BitVec.allOnes hi ++ 0#lo) = m ++ 0#lo) : w = m ++ w.extractLsb' 0 lo := by
  have split : w.extractLsb' lo hi ++ w.extractLsb' 0 lo = w := BitVec.extractLsb'_append_extractLsb'
  have upper : w.extractLsb' lo hi = m := by
    rw [← split, Laws.mask_operand] at masked
    simpa only [BitVec.extractLsb'_append_eq_left] using congrArg (BitVec.extractLsb' lo hi) masked
  rw [← upper, split]

/-- The word of the byte command whose three upper bytes a row selects. -/
theorem eq_byteWord_of_masked {w : Word} {op : BitVec 8}
    (masked : w &&& 0xFFFFFF00#32 = (op ++ 0x0000#16 : BitVec 24) ++ 0x00#8) :
    w = commandWord op (0x00#8 ++ w.extractLsb' 0 8) :=
  (eq_append_of_masked (hi := 24) (lo := 8) masked).trans (Laws.byteWord_split op _).symm

/-- BITB's word with its operand split off. -/
theorem bitbWord_split (d : BitVec 1) : encode (.bitb d) = 0x02000000#31 ++ d := by
  revert d
  decide

/-- A row selects words of its own command only. -/
theorem encode_of_selects {w : Word} {r : CommandRow} (hr : r ∈ commandRows) (h : r.selects w = true) :
    ∃ i, encode i = w ∧ i.mnemonic = r.mnemonic := by
  have masked : w &&& r.mask = r.matchBits := beq_iff_eq.1 h
  simp only [commandRows, List.mem_cons, List.not_mem_nil, or_false] at hr
  obtain rfl | rfl | rfl | rfl | rfl | rfl | rfl | rfl | rfl | rfl := hr
  · exact ⟨.nop, ((BitVec.and_allOnes (x := w)).symm.trans masked).symm, rfl⟩
  · exact ⟨.init _, (eq_append_of_masked (hi := 16) (lo := 16) (m := 0x0100#16) masked).symm, rfl⟩
  · exact ⟨.bytet _, (eq_byteWord_of_masked (op := 0x02#8) masked).symm, rfl⟩
  · exact ⟨.byteb _, (eq_byteWord_of_masked (op := 0x03#8) masked).symm, rfl⟩
  · exact ⟨.bitb _, (bitbWord_split _).trans (eq_append_of_masked (hi := 31) (lo := 1) masked).symm, rfl⟩
  · exact ⟨.hext _, (eq_byteWord_of_masked (op := 0x05#8) masked).symm, rfl⟩
  · exact ⟨.hexb _, (eq_byteWord_of_masked (op := 0x06#8) masked).symm, rfl⟩
  · exact ⟨.hexn _, (eq_byteWord_of_masked (op := 0x07#8) masked).symm, rfl⟩
  · exact ⟨.flush, ((BitVec.and_allOnes (x := w)).symm.trans masked).symm, rfl⟩
  · exact ⟨.check _, (eq_append_of_masked (hi := 16) (lo := 16) (m := 0x0900#16) masked).symm, rfl⟩

/-- A mnemonic names one row. -/
theorem eq_of_mnemonic_eq {r q : CommandRow} (hr : r ∈ commandRows) (hq : q ∈ commandRows)
    (name : r.mnemonic = q.mnemonic) : r = q :=
  List.inj_on_of_nodup_map (f := CommandRow.mnemonic) (by decide) hr hq name

theorem selects_iff_decode {w : Word} {r : CommandRow} (hr : r ∈ commandRows) :
    r.selects w = true ↔ ∃ i, decode w = .ok i ∧ i.mnemonic = r.mnemonic := by
  constructor
  · intro h
    obtain ⟨i, rfl, name⟩ := encode_of_selects hr h
    exact ⟨i, decode_encode i, name⟩
  · rintro ⟨i, hd, name⟩
    obtain ⟨q, hq, qname, h⟩ := row_of_encode i
    rwa [← eq_of_mnemonic_eq hq hr (qname.trans name), ← encode_of_decode hd]

/-- Settles O4: a row selects the words of its command, and a command's word is selected by the one row of its
mnemonic. -/
theorem rowSelectsItsCommand : Obligations.RowSelectsItsCommand :=
  fun _ _ hr => selects_iff_decode hr

/-- Two rows that select one word bear the mnemonic of its command. -/
theorem eq_of_selects {w : Word} {r q : CommandRow} (hr : r ∈ commandRows) (hq : q ∈ commandRows)
    (rsel : r.selects w = true) (qsel : q.selects w = true) : r = q := by
  obtain ⟨i, hi, rname⟩ := (selects_iff_decode hr).1 rsel
  obtain ⟨j, hj, qname⟩ := (selects_iff_decode hq).1 qsel
  obtain rfl : i = j := Except.ok.inj (hi.symm.trans hj)
  exact eq_of_mnemonic_eq hr hq (rname.symm.trans qname)

theorem selecting_rows_le_one (w : Word) : (commandRows.filter fun r => r.selects w).length ≤ 1 := by
  have nodup : (commandRows.filter fun r => r.selects w).Nodup := List.Nodup.filter _ (by decide)
  rw [← List.toFinset_card_of_nodup nodup, Finset.card_le_one]
  intro r hr q hq
  simp only [List.mem_toFinset, List.mem_filter] at hr hq
  exact eq_of_selects hr.1 hq.1 hr.2 hq.2

/-- A word with a command is selected by the command's row. -/
theorem decode_error_of_no_row {w : Word} (h : ∀ r ∈ commandRows, r.selects w = false) :
    ∃ e, decode w = .error e := by
  cases hd : decode w with
  | error e => exact ⟨e, rfl⟩
  | ok i =>
    obtain ⟨r, hr, _, selected⟩ := row_of_encode i
    rw [encode_of_decode hd, h r hr] at selected
    contradiction

/-! ### The algorithm of R87 -/

theorem decodeNone_answers {x : Except Illegal Instr} {imm : BitVec 16} {i : Instr} (h : x = decodeNone imm i) :
    if imm = 0x0000#16 then x = .ok i else ∃ e, x = .error e := by
  subst h
  unfold decodeNone
  split <;> simp

theorem decodeByte_answers {x : Except Illegal Instr} {imm : BitVec 16} {mk : Byte → Instr}
    (h : x = decodeByte imm mk) :
    if imm.extractLsb' 8 8 = 0x00#8 then x = .ok (mk (imm.extractLsb' 0 8)) else ∃ e, x = .error e := by
  subst h
  unfold decodeByte
  split <;> simp

theorem decodeBit_answers {x : Except Illegal Instr} {imm : BitVec 16} {mk : BitVec 1 → Instr}
    (h : x = decodeBit imm mk) :
    if imm.extractLsb' 1 15 = 0#15 then x = .ok (mk (imm.extractLsb' 0 1)) else ∃ e, x = .error e := by
  subst h
  unfold decodeBit
  split <;> simp

/-- OP 0x0A and up name no command (R87). -/
theorem decode_unknown {op : BitVec 8} (h : 0x0A#8 ≤ op) (imm : BitVec 16) :
    decode (commandWord op imm) = .error .unknownOpcode := by
  have noCommand : ∀ k < 0x0A#8, op ≠ k := by
    rintro k hk rfl
    exact BitVec.not_le.2 hk h
  simp [decode_commandWord, noCommand]

/-- Settles O3: the clauses are the branches on OP, and the rows of the map are told apart by their commands. -/
theorem decodeFollowsItsAlgorithm : Obligations.DecodeFollowsItsAlgorithm := by
  rintro w op rsv imm rfl
  refine ⟨fun reserved => ⟨_, decode_reserved (by rwa [rsvField_append])⟩, ?_, selecting_rows_le_one _,
    decode_error_of_no_row⟩
  rintro rfl
  refine ⟨?nop, ?init, ?bytet, ?byteb, ?bitb, ?hext, ?hexb, ?hexn, ?flush, ?check, fun h => ⟨_, decode_unknown h imm⟩⟩
  all_goals rintro rfl
  case nop | flush => exact decodeNone_answers (decode_commandWord _ imm)
  case bytet | byteb | hext | hexb | hexn => exact decodeByte_answers (decode_commandWord _ imm)
  case bitb => exact decodeBit_answers (decode_commandWord _ imm)
  case init | check => exact decode_commandWord _ imm

/-! ### Illegal words -/

/-- A word with a known OP, RSV 0 and its must-be-zero bits 0 is none of R88's illegal words. -/
theorem not_illegalWord_commandWord {op : BitVec 8} {imm : BitVec 16} (known : op < 0x0A#8)
    (zero : imm &&& immMustBeZero op = 0x0000#16) : ¬ illegalWord (commandWord op imm) := by
  change ¬ (0x0A#8 ≤ opField (op ++ 0x00#8 ++ imm) ∨ rsvField (op ++ 0x00#8 ++ imm) ≠ 0x00#8 ∨
    immField (op ++ 0x00#8 ++ imm) &&& immMustBeZero (opField (op ++ 0x00#8 ++ imm)) ≠ 0x0000#16)
  simp [opField_append, rsvField_append, immField_append, zero, known]

/-- The upper byte of IMM is 0 over a byte operand. -/
theorem byte_operand_mask (b : Byte) : (0x00#8 ++ b : BitVec 16) &&& 0xFF00#16 = 0x0000#16 :=
  Laws.mask_operand 8 8 0x00#8 b

theorem not_illegalWord_encode (i : Instr) : ¬ illegalWord (encode i) := by
  cases i with
  | nop | flush => exact not_illegalWord_commandWord (by decide) rfl
  | init _ | check _ => exact not_illegalWord_commandWord (by decide) BitVec.and_zero
  | bytet b | byteb b | hext b | hexb b | hexn b =>
    exact not_illegalWord_commandWord (by decide) (byte_operand_mask b)
  | bitb d => exact not_illegalWord_commandWord (by decide) (Laws.mask_operand 15 1 0#15 d)

theorem decode_error_of_illegalWord {w : Word} (illegal : illegalWord w) : ∃ e, decode w = .error e := by
  cases hd : decode w with
  | error e => exact ⟨e, rfl⟩
  | ok i =>
    rw [← encode_of_decode hd] at illegal
    exact absurd illegal (not_illegalWord_encode i)

/-- Settles O6: no command's word is illegal, and the write that carries an illegal word raises IllegalCommand. -/
theorem illegalWordOnlySetsErrCmd : Obligations.IllegalWordOnlySetsErrCmd := by
  intro s w illegal
  obtain ⟨e, hd⟩ := decode_error_of_illegalWord illegal
  exact ⟨executeWord_of_decode_error hd s, executeWord_of_decode_error hd (respond (some .ok) s)⟩

/-! ### The assembler -/

/-- An operand in range is the number its command's field holds (R82, R90). -/
theorem toSource_toInstr {c : SourceCommand} (h : c.wellFormed = true) : c.toInstr.toSource = c := by
  cases c with
  | nop | flush => rfl
  | init v | check v =>
    have range : v < 2 ^ 16 := Nat.lt_succ_of_le (of_decide_eq_true h)
    simp only [SourceCommand.toInstr, Instr.toSource, BitVec.toNat_ofNat, Nat.mod_eq_of_lt range]
  | bytet v | byteb v | hext v | hexb v | hexn v =>
    have range : v < 2 ^ 8 := Nat.lt_succ_of_le (of_decide_eq_true h)
    simp only [SourceCommand.toInstr, Instr.toSource, BitVec.toNat_ofNat, Nat.mod_eq_of_lt range]
  | bitb v =>
    have range : v < 2 ^ 1 := Nat.lt_succ_of_le (of_decide_eq_true h)
    simp only [SourceCommand.toInstr, Instr.toSource, BitVec.toNat_ofNat, Nat.mod_eq_of_lt range]

/-- Settles O7: the range check decides, and the word emitted is the command's own. -/
theorem assemblerEmitsOnlyItsCommands : Obligations.AssemblerEmitsOnlyItsCommands := by
  refine fun c => ⟨fun h => ?refused, fun h => ⟨encode c.toInstr, ?emitted, decode_encode _, toSource_toInstr h⟩⟩
  case refused | emitted => simp [assembleCommand, h]

/-- A read of a register's own offset reaches the register (R51, R52). -/
theorem resolveRead_offset (r : ReadReg) : resolveRead r.offset 4 = .ok r := by
  have aligned : admitted r.offset 4 = true := (admitted_iff _ _).2 ⟨rfl, offset_aligned r⟩
  simp only [resolveRead, aligned, if_true, readAt_offset]

/-- Settles O8: the line reads at the register's own offset. -/
theorem rdLineReachesItsRegister : Obligations.RdLineReachesItsRegister := by
  intro r reg h
  exact ⟨reg.offset, by simp only [Line.toAccess, h, Option.map_some], resolveRead_offset reg⟩

end Sys2Proof.Machine
end

section
/-! PROOFS. The digit value and the class of a character (R100, R101), and the byte two characters make (R102, R107). -/

namespace Sys2Proof.Machine

/-! ### The digit value -/

theorem rawDigit_of_ge {c : Byte} (h : 0x41 ≤ c.toNat) : rawDigit c = c - 0x37#8 :=
  if_pos h

theorem rawDigit_of_lt {c : Byte} (h : c.toNat < 0x41) : rawDigit c = c - 0x30#8 :=
  if_neg (Nat.not_le.2 h)

theorem toNat_rawDigit_of_ge {c : Byte} (h : 0x41 ≤ c.toNat) :
    (rawDigit c).toNat = (c.toNat + 256 - 0x37) % 256 := by
  rw [rawDigit_of_ge h, BitVec.toNat_sub, BitVec.toNat_ofNat]
  omega

theorem toNat_rawDigit_of_lt {c : Byte} (h : c.toNat < 0x41) :
    (rawDigit c).toNat = (c.toNat + 256 - 0x30) % 256 := by
  rw [rawDigit_of_lt h, BitVec.toNat_sub, BitVec.toNat_ofNat]
  omega

theorem toNat_nib (c : Byte) : (nib c).toNat = (rawDigit c).toNat % 16 := by
  rw [nib, BitVec.extractLsb'_toNat, Nat.shiftRight_zero]

/-- 0x37 is 7 modulo 16, so the low nibble moves by 9 (R100). -/
theorem toNat_nib_of_ge {c : Byte} (h : 0x41 ≤ c.toNat) : (nib c).toNat = (c.toNat + 9) % 16 := by
  rw [toNat_nib, toNat_rawDigit_of_ge h]
  omega

/-- 0x30 is 0 modulo 16, so the low nibble stays (R100). -/
theorem toNat_nib_of_lt {c : Byte} (h : c.toNat < 0x41) : (nib c).toNat = c.toNat % 16 := by
  rw [toNat_nib, toNat_rawDigit_of_lt h]
  omega

/-- Settles O20: the digit values are subtractions modulo 256, and their low nibbles move by 0 or by 9. -/
theorem digitValueOfEveryCharacter : Obligations.DigitValueOfEveryCharacter := by
  refine ⟨fun c => ⟨toNat_rawDigit_of_ge, toNat_rawDigit_of_lt, rfl, fun lower => ?_, fun upper => ?_⟩, by decide⟩
  all_goals apply BitVec.eq_of_toNat_eq
  · rw [toNat_nib_of_lt lower, BitVec.extractLsb'_toNat, Nat.shiftRight_zero]
  · rw [toNat_nib_of_ge upper, BitVec.toNat_add, BitVec.extractLsb'_toNat, Nat.shiftRight_zero]
    exact (Nat.mod_add_mod c.toNat 16 9).symm

/-! ### The strict class -/

theorem isHex_iff (c : Byte) : isHex c = true ↔
    (0x30 ≤ c.toNat ∧ c.toNat ≤ 0x39) ∨ (0x41 ≤ c.toNat ∧ c.toNat ≤ 0x46) ∨
      (0x61 ≤ c.toNat ∧ c.toNat ≤ 0x66) := by
  simp only [isHex, Bool.or_eq_true, decide_eq_true_eq, BitVec.le_def, BitVec.toNat_ofNat, or_assoc]

/-- Settles O21: the class is its three ranges, and over each the digit value follows the code. -/
theorem strictClassIsTheHexDigits : Obligations.StrictClassIsTheHexDigits := by
  refine ⟨isHex_iff, ?outside, fun c => ⟨fun lower upper => ?digit, fun lower upper => ?capital,
    fun lower upper => ?small⟩⟩
  case outside => rfl
  case digit =>
    rw [toNat_nib_of_lt (by omega)]
    omega
  case capital | small =>
    rw [toNat_nib_of_ge (by omega)]
    omega

/-! ### The byte of two characters -/

/-- Two low nibbles side by side: the shift drops the upper nibble of one, the mask that of the other. -/
theorem append_nibbles (x y : Byte) :
    x.extractLsb' 0 4 ++ y.extractLsb' 0 4 = (x <<< 4) ||| (y &&& 0x0F#8) := by
  have shift : x <<< 4 = x.extractLsb' 0 4 ++ 0x0#4 := BitVec.shiftLeft_eq_concat_of_lt (by decide)
  have mask : y &&& 0x0F#8 = 0x0#4 ++ y.extractLsb' 0 4 := by
    have split : y.extractLsb' 4 4 ++ y.extractLsb' 0 4 = y :=
      BitVec.extractLsb'_append_extractLsb' (w := 4) (len := 4)
    calc y &&& 0x0F#8
      _ = (y.extractLsb' 4 4 ++ y.extractLsb' 0 4) &&& (0x0#4 ++ BitVec.allOnes 4) := by rw [split]; rfl
      _ = 0x0#4 ++ y.extractLsb' 0 4 := by rw [BitVec.and_append, BitVec.and_zero, BitVec.and_allOnes]
  rw [shift, mask, BitVec.or_append, BitVec.or_zero, BitVec.zero_or]

/-- The decoder's byte (R102) is the source's (R107). -/
theorem nib_append_nib (c1 c2 : Byte) : nib c1 ++ nib c2 = pairByte c1 c2 :=
  append_nibbles (rawDigit c1) (rawDigit c2)

/-- The mask of the source's first term keeps a whole byte. -/
theorem pairByte_eq_masked (c1 c2 : Byte) :
    pairByte c1 c2 = ((rawDigit c1 <<< 4) &&& 0xFF#8) ||| (rawDigit c2 &&& 0x0F#8) := by
  rw [show 0xFF#8 = BitVec.allOnes 8 from rfl, BitVec.and_allOnes, pairByte]

end Sys2Proof.Machine
end

section
/-! PROOFS. The two CRC paths agree on a byte (R120, R131). -/

namespace Sys2Proof.Machine

/-- A data bit equal to the register's lowest bit only shifts the register (R130). -/
theorem bitStep_lsb (crc : Crc) : bitStep crc (crc.getLsbD 0) = crc >>> 1 := by
  rw [bitStep, Bool.xor_self, if_neg Bool.false_ne_true]

/-- Data bits equal to the register's lowest bits only shift the register. -/
theorem bitSteps_own_bits (n k : Nat) (crc : Crc) (b : Byte)
    (own : ∀ j < n, b.getLsbD (k + j) = crc.getLsbD j) : bitSteps n k crc b = crc >>> n := by
  induction n generalizing k crc with
  | zero => rfl
  | succ n ih =>
    have lowest : b.getLsbD k = crc.getLsbD 0 := own 0 n.succ_pos
    have rest (j : Nat) (hj : j < n) : b.getLsbD (k + 1 + j) = (crc >>> 1).getLsbD j := by
      rw [BitVec.getLsbD_ushiftRight, Nat.add_assoc]
      exact own (1 + j) (by omega)
    rw [bitSteps, lowest, bitStep_lsb, ih _ _ rest, ← BitVec.shiftRight_add, Nat.add_comm]

/-- The register's own low byte shifts it out and leaves the high byte (R131). -/
theorem bytewiseStep_low_byte (hi lo : Byte) : bytewiseStep (hi ++ lo) lo = 0x00#8 ++ hi := by
  have own (j : Nat) (hj : j < 8) : lo.getLsbD (0 + j) = (hi ++ lo).getLsbD j := by
    rw [BitVec.getLsbD_append, if_pos hj, Nat.zero_add]
  rw [bytewiseStep, bitSteps_own_bits 8 0 _ _ own, BitVec.ushiftRight_eq_extractLsb'_of_lt (by decide)]
  exact congrArg (0x00#8 ++ ·) BitVec.extractLsb'_append_eq_left

/-- By linearity a byte is the register's low byte, which shifts it out, and the table's index, which gives the
entry from `crc` 0. -/
theorem bytewiseStep_eq_tableStep (crc : Crc) (b : Byte) : bytewiseStep crc b = tableStep crc b := by
  obtain ⟨hi, lo, rfl⟩ : ∃ hi lo : Byte, crc = hi ++ lo := ⟨_, _, (append_bytes crc).symm⟩
  calc bytewiseStep (hi ++ lo) b
    _ = bytewiseStep (hi ++ lo ^^^ 0x0000#16) (lo ^^^ (lo ^^^ b)) := by
      rw [BitVec.xor_zero, ← BitVec.xor_assoc, BitVec.xor_self, BitVec.zero_xor]
    _ = (0x00#8 ++ hi) ^^^ tableEntry (lo ^^^ b) := by
      rw [bytewiseStep_xor, bytewiseStep_low_byte, tableEntry_eq_bytewiseStep]
    _ = tableStep (hi ++ lo) b := (tableStep_append hi lo b).symm

end Sys2Proof.Machine
end

section
/-! PROOFS. The encodings of a command with a byte operand and of one without operand (R85). -/

namespace Sys2Proof.Machine

open Sys2Proof.Spec

/-- A word of a given OP is illegal when RSV is not 0 or when its IMM is illegal under that OP. -/
theorem decode_error_of_opcode {op : BitVec 8} {w : Word} (opcode : opField w = op)
    (illegal : ∀ imm, w = commandWord op imm → ∃ e, decode (commandWord op imm) = .error e) :
    ∃ e, decode w = .error e := by
  by_cases rsv : rsvField w = 0x00#8
  · have word : w = commandWord op (immField w) := by rw [← opcode, commandWord_of_fields rsv]
    rw [word]
    exact illegal _ word
  · exact ⟨_, decode_reserved rsv⟩

theorem byteEncoding_of_decode {op : BitVec 8} {mk : Byte → Instr}
    (h : ∀ imm, decode (commandWord op imm) = decodeByte imm mk) : byteEncoding op mk := by
  refine ⟨fun b => ?_, fun w opcode upper => decode_error_of_opcode opcode fun imm word => ?_⟩
  · have word : op ++ 0x00#8 ++ 0x00#8 ++ b = commandWord op (0x00#8 ++ b) := BitVec.append_assoc
    rw [word, h, decodeByte_operand]
  · have mustBeZero : imm.extractLsb' 8 8 ≠ 0x00#8 := by
      intro zero
      rw [word, ← imm_of_byte zero, Laws.byteWord_split, BitVec.extractLsb'_append_eq_of_le (by decide)] at upper
      exact upper BitVec.extractLsb'_append_eq_right
    have answers := decodeByte_answers (h imm)
    rwa [if_neg mustBeZero] at answers

theorem noneEncoding_of_decode {op : BitVec 8} {i : Instr}
    (h : ∀ imm, decode (commandWord op imm) = decodeNone imm i) : noneEncoding op i := by
  have only : op ++ 0x000000#24 = commandWord op 0x0000#16 :=
    (BitVec.append_assoc (x₁ := op) (x₂ := 0x00#8) (x₃ := 0x0000#16)).symm
  refine ⟨?_, fun w opcode operand => decode_error_of_opcode opcode fun imm word => ?_⟩
  · rw [only, h]
    rfl
  · have mustBeZero : imm ≠ 0x0000#16 := by
      rintro rfl
      rw [word, ← only] at operand
      exact operand BitVec.extractLsb'_append_eq_right
    have answers := decodeNone_answers (h imm)
    rwa [if_neg mustBeZero] at answers

end Sys2Proof.Machine
end

section
/-! PROOFS. The hex decoder's commands (R102 to R106) and a pair shared between commands (R108, R185). -/

namespace Sys2Proof.Machine

open Sys2Proof.Spec

/-! ### One character -/

/-- Settles O14: the three cases of the character step, and the pair's byte as the source writes it. -/
theorem hexAcceptTakesOneCharacter : Obligations.HexAcceptTakesOneCharacter :=
  ⟨fun _ _ => ⟨hexAccept_rejected, hexAccept_first, hexAccept_second⟩,
    fun c1 c => (nib_append_nib c1 c).trans (pairByte_eq_masked c1 c)⟩

/-- A command that feeds the completed byte to a CRC path has the three cases of R102. -/
theorem hexCommand_of_feedByte {mk : Byte → Instr} {path : Crc → Byte → Crc}
    (h : ∀ c s, exec (mk c) s = .next (feedByte path (hexAccept c s))) : hexCommand mk path := by
  refine fun s c => ⟨fun strict notHex => ?rejected, fun taken half => ?first, fun taken half => ?second⟩
  all_goals rw [h]
  case rejected => rw [hexAccept_rejected strict notHex, feedByte_none]; rfl
  case first => rw [hexAccept_first taken half, feedByte_none]; rfl
  case second => rw [hexAccept_second taken half, feedByte_some]; rfl

theorem hexCommand_hext : hexCommand .hext tableStep :=
  hexCommand_of_feedByte fun _ _ => rfl

theorem hexCommand_hexb : hexCommand .hexb bytewiseStep :=
  hexCommand_of_feedByte fun _ _ => rfl

/-- HEXN is the hex command whose path keeps `crc` (R105). -/
theorem hexCommand_hexn : hexCommand .hexn (fun crc _ => crc) := by
  refine hexCommand_of_feedByte fun c s => ?_
  obtain ⟨_, _, hx⟩ | ⟨_, _, hx⟩ | ⟨_, _, hx⟩ := hexAccept_cases c s <;> rw [exec, execHexn, hx] <;> rfl

/-- Settles O15: HEXT is the hex command of the table path. -/
theorem hextFeedsTheTablePath : Obligations.HextFeedsTheTablePath :=
  ⟨byteEncoding_of_decode (decode_commandWord _), hexCommand_hext, rfl⟩

theorem exec_hexb_eq_exec_hext (s : State) (c : Byte) : exec (.hexb c) s = exec (.hext c) s := by
  have paths : bytewiseStep = tableStep := funext₂ bytewiseStep_eq_tableStep
  rw [exec, exec, execHexb, execHext, paths]

/-- Settles O16: HEXB is the hex command of the bitwise path, which is the table path on every byte. -/
theorem hexbFeedsTheBitwisePath : Obligations.HexbFeedsTheBitwisePath :=
  ⟨byteEncoding_of_decode (decode_commandWord _), hexCommand_hexb, exec_hexb_eq_exec_hext, rfl⟩

/-- Settles O17: HEXN and HEXT share the character step, after which HEXT writes at most `crc`. -/
theorem hexnLeavesTheCrc : Obligations.HexnLeavesTheCrc := by
  refine ⟨byteEncoding_of_decode (decode_commandWord _), hexCommand_hexn, fun s c => ⟨_, _, rfl, rfl, ?_⟩, rfl, rfl⟩
  obtain ⟨v, hv⟩ := feedByte_eq_loadCrc tableStep (hexAccept c s)
  obtain ⟨_, _, _, _, crc, _⟩ := hexAccept_surroundings c s
  rw [hv]
  exact ⟨rfl, rfl, rfl, crc⟩

/-! ### The end of a stream -/

theorem exec_flush_permissive {s : State} (half : s.half = true) (permissive : s.strict = false) :
    exec .flush s = .next (dropNibble s) := by
  rw [exec, execFlush_pending half, if_neg (Bool.eq_false_iff.1 permissive)]

theorem exec_flush_strict {s : State} (half : s.half = true) (strict : s.strict = true) :
    exec .flush s = .next (dropNibble (raise .oddLengthInput s)) := by
  rw [exec, execFlush_pending half, if_pos strict]

/-- Settles O18: FLUSH acts on a pending character only, and strict mode adds the condition. -/
theorem flushEndsTheStream : Obligations.FlushEndsTheStream :=
  ⟨noneEncoding_of_decode (decode_commandWord _),
    fun _ => ⟨execFlush_idle, exec_flush_permissive, exec_flush_strict⟩⟩

/-! ### Two characters -/

/-- A byte taken with nothing pending before or after it: LASTBYTE holds it and `crc` has gone along the path. -/
def takeByte (path : Crc → Byte → Crc) (b : Byte) (s : State) : State :=
  { s with lastByte := b, hinib := 0x0#4, crc := path s.crc b }

theorem after_eq_of_exec {i : Instr} {s t : State} (h : exec i s = .next t) : after i s = t :=
  Host.Outcome.next.inj ((exec_next i s).symm.trans h)

section Pair

variable {mk mk1 : Byte → Instr} {path path1 : Crc → Byte → Crc} {s : State}

/-- A first character is held, whatever the hex command (R102). -/
theorem after_first (hmk : hexCommand mk path) (c : Byte) (half : s.half = false) (permissive : s.strict = false) :
    after (mk c) s = holdNibble (nib c) s := by
  obtain ⟨_, first, _⟩ := hmk s c
  exact after_eq_of_exec (first (.inl permissive) half)

/-- A second character completes the held one, and its command's path takes the byte (R102, R108). -/
theorem after_second (hmk : hexCommand mk path) (n : Nibble) (c : Byte) (half : s.half = false)
    (taken : s.strict = false ∨ isHex c = true) :
    after (mk c) (holdNibble n s) = takeByte path (n ++ nib c) s := by
  obtain ⟨_, _, second⟩ := hmk (holdNibble n s) c
  rw [after_eq_of_exec (second taken rfl)]
  simp [takeByte, holdNibble, half]

/-- Two characters, each by a hex command of its own (R108). -/
theorem afterAll_pair (hmk1 : hexCommand mk1 path1) (hmk : hexCommand mk path) (c1 c : Byte)
    (half : s.half = false) (permissive : s.strict = false) :
    afterAll [mk1 c1, mk c] s = takeByte path (nib c1 ++ nib c) s := by
  rw [afterAll_cons, after_first hmk1 c1 half permissive]
  exact after_second hmk _ c half (.inl permissive)

end Pair

/-- Settles O31: the first command only holds its nibble, so the second alone decides what becomes of the byte; the
byte commands keep the pair, INIT drops it, and STRICT is read at each character. -/
theorem mixedCommandsShareThePair : Obligations.MixedCommandsShareThePair := by
  refine ⟨fun s c1 c first hfirst half permissive => ?mixed, fun s i b d v hi => ?kept,
    fun s v => ⟨_, rfl, rfl, rfl, rfl⟩, fun s c1 c half permissive => ?strictBetween⟩
  case mixed =>
    obtain ⟨path1, hmk1⟩ : ∃ path1, hexCommand first path1 := by
      obtain rfl | rfl | rfl := hfirst
      · exact ⟨_, hexCommand_hext⟩
      · exact ⟨_, hexCommand_hexb⟩
      · exact ⟨_, hexCommand_hexn⟩
    have completed {mk : Byte → Instr} {path : Crc → Byte → Crc} (hmk : hexCommand mk path) :
        execAll [first c1, mk c] s = .next (takeByte path (nib c1 ++ nib c) s) := by
      rw [execAll_next, afterAll_pair hmk1 hmk c1 c half permissive]
    exact ⟨completed hexCommand_hext, completed hexCommand_hexb, completed hexCommand_hexn⟩
  case kept =>
    obtain rfl | rfl | rfl | rfl | rfl := hi <;> exact ⟨_, rfl, rfl, rfl⟩
  case strictBetween =>
    refine ⟨holdNibble (nib c1) s, ?_, rfl, fun hex => ?_, fun notHex => ?_⟩
    · rw [exec_next, after_first hexCommand_hexn c1 half permissive]
    · rw [exec_next]
      exact congrArg _ (after_second (s := writeStrict true s) hexCommand_hexn (nib c1) c half (.inr hex))
    · obtain ⟨rejected, _, _⟩ := hexCommand_hexn (writeStrict true (holdNibble (nib c1) s)) c
      exact rejected rfl notHex

/-- Settles O32: the byte commands fold their bytes into `crc` under the held nibble, and HEXT completes it there. -/
theorem pendingPairOutlivesByteCommands : Obligations.PendingPairOutlivesByteCommands := by
  intro s c1 c bs half permissive
  rw [execAll_next, afterAll_cons, after_first hexCommand_hexn c1 half permissive, afterAll_append, afterAll_bytet]
  exact congrArg _ (after_second (s := loadCrc (crc16Table bs s.crc) s) hexCommand_hext (nib c1) c half
    (.inl permissive))

end Sys2Proof.Machine
end

section
/-! PROOFS. A string of characters through one hex command (R107). -/

namespace Sys2Proof.Machine

open Sys2Proof.Spec

/-! ### The source's `hex_decode` -/

theorem hexDecode_length (cs : List Byte) : (hexDecode cs).length = cs.length / 2 := by
  induction cs using hexDecode.induct with
  | case1 c1 c2 cs ih =>
    simp only [hexDecode, List.length_cons, ih]
    omega
  | case2 c => simp [hexDecode]
  | case3 => rfl

theorem hexDecode_getElem (cs : List Byte) (k : Nat) (h : k < (hexDecode cs).length) :
    (hexDecode cs)[k] = pairByte (cs.getD (2 * k) 0x00#8) (cs.getD (2 * k + 1) 0x00#8) := by
  induction cs using hexDecode.induct generalizing k with
  | case1 c1 c2 cs ih =>
    cases k with
    | zero => rfl
    | succ k => exact ih k (Nat.lt_of_succ_lt_succ h)
  | case2 | case3 => contradiction

/-! ### Two characters at a time -/

/-- Where R107 starts: nothing pending, permissive mode. -/
structure Ready (s : State) : Prop where
  half : s.half = false
  hinib : s.hinib = 0x0#4
  permissive : s.strict = false

theorem ready_takeByte (path : Crc → Byte → Crc) (b : Byte) {s : State} (ready : Ready s) :
    Ready (takeByte path b s) :=
  ⟨ready.half, rfl, ready.permissive⟩

/-- Bytes taken one after another: LASTBYTE holds the last, if any, and `crc` has gone along the path. -/
def takeBytes (path : Crc → Byte → Crc) (bs : List Byte) (s : State) : State :=
  { s with lastByte := bs.getLastD s.lastByte, crc := bs.foldl path s.crc }

theorem takeBytes_takeByte (path : Crc → Byte → Crc) (b : Byte) (bs : List Byte) {s : State} (ready : Ready s) :
    takeBytes path bs (takeByte path b s) = takeBytes path (b :: bs) s := by
  simp only [takeBytes, takeByte, List.getLastD_cons, List.foldl_cons, ready.hinib]

/-- A character dropped by FLUSH leaves no trace in permissive mode (R106). -/
theorem after_flush_holdNibble (n : Nibble) {s : State} (ready : Ready s) : after .flush (holdNibble n s) = s := by
  have permissive : (holdNibble n s).strict = false := ready.permissive
  rw [after_eq_of_exec (exec_flush_permissive rfl permissive)]
  change { s with half := false, hinib := 0x0#4 } = s
  rw [← ready.half, ← ready.hinib]

section Characters

variable {mk : Byte → Instr} {path : Crc → Byte → Crc} {s : State}

theorem afterAll_cons_pair (hmk : hexCommand mk path) (ready : Ready s) (c1 c2 : Byte) (is : List Instr) :
    afterAll (mk c1 :: mk c2 :: is) s = afterAll is (takeByte path (pairByte c1 c2) s) := by
  rw [← nib_append_nib, ← afterAll_pair hmk hmk c1 c2 ready.half ready.permissive]
  rfl

/-- A string and FLUSH take the bytes of `hex_decode`; an odd last character is held, then dropped. -/
theorem afterAll_string_flush (hmk : hexCommand mk path) (cs : List Byte) (ready : Ready s) :
    afterAll (cs.map mk ++ [.flush]) s = takeBytes path (hexDecode cs) s := by
  induction cs using hexDecode.induct generalizing s with
  | case1 c1 c2 cs ih =>
    simp only [List.map_cons, List.cons_append, afterAll_cons_pair hmk ready, ih (ready_takeByte path _ ready),
      takeBytes_takeByte _ _ _ ready, hexDecode]
  | case2 c =>
    change after .flush (after (mk c) s) = s
    rw [after_first hmk c ready.half ready.permissive, after_flush_holdNibble _ ready]
  | case3 => exact after_eq_of_exec (i := .flush) (execFlush_idle ready.half)

end Characters

/-- After the first `2k + 2` characters by HEXN, LASTBYTE is byte `k`. -/
theorem afterAll_hexn_take (cs : List Byte) (k : Nat) (h : k < (hexDecode cs).length) {s : State} (ready : Ready s) :
    afterAll ((cs.take (2 * k + 2)).map .hexn) s = { s with lastByte := (hexDecode cs)[k] } := by
  induction cs using hexDecode.induct generalizing k s with
  | case1 c1 c2 cs ih =>
    simp only [List.take_succ_cons, List.map_cons, afterAll_cons_pair hexCommand_hexn ready]
    cases k with
    | zero => simp [takeByte, ready.hinib, hexDecode, afterAll]
    | succ k =>
      rw [Nat.mul_succ, ih k (Nat.lt_of_succ_lt_succ h) (ready_takeByte _ _ ready)]
      simp [takeByte, ready.hinib, hexDecode]
  | case2 | case3 => contradiction

/-- Settles O30: each hex command takes the bytes of `hex_decode` along its own path. -/
theorem hexStringIsDecodedInOrder : Obligations.HexStringIsDecodedInOrder := by
  intro s cs half pair permissive
  have ready : Ready s := ⟨half, pair half, permissive⟩
  have string {mk : Byte → Instr} {path : Crc → Byte → Crc} (hmk : hexCommand mk path) :
      execAll (cs.map mk ++ [.flush]) s = .next (takeBytes path (hexDecode cs) s) := by
    rw [execAll_next, afterAll_string_flush hmk cs ready]
  refine ⟨hexDecode_length cs, fun k h => ?_, fun k h => ?_, ?_, string hexCommand_hext, string hexCommand_hexb⟩
  · rw [hexDecode_getElem, pairByte_eq_masked]
  · rw [execAll_next, afterAll_hexn_take cs k h ready]
  · have keepsCrc := string hexCommand_hexn
    rwa [takeBytes, List.foldl_fixed] at keepsCrc

end Sys2Proof.Machine
end

section
/-! PROOFS. The table-driven path (R120 to R125): BYTET, its agreement with the bitwise path, the CRC of a sequence. -/

namespace Sys2Proof.Machine

/-- The mask of R120's index keeps the low byte. -/
theorem setWidth_and_mask (v : BitVec 16) : (v &&& 0x00FF#16).setWidth 8 = v.extractLsb' 0 8 := by
  have mask : (0x00FF#16).setWidth 8 = BitVec.allOnes 8 := rfl
  rw [BitVec.setWidth_and, mask, BitVec.and_allOnes,
    BitVec.setWidth_eq_extractLsb' (by decide)]

/-- R120 as the source writes it, with the mask. -/
theorem tableStep_eq_masked (crc : Crc) (b : Byte) :
    tableStep crc b = (crc >>> 8) ^^^ tableEntry (((crc ^^^ b.setWidth 16) &&& 0x00FF#16).setWidth 8) := by
  rw [setWidth_and_mask, tableStep]

/-- R120 on the two bytes of the register (R121). -/
theorem tableStep_eq_bytes (crc : Crc) (b : Byte) :
    tableStep crc b = (crc.extractLsb' 8 8).setWidth 16 ^^^ tableEntry (crc.extractLsb' 0 8 ^^^ b) := by
  have extended : (crc.extractLsb' 8 8).setWidth 16 = 0x00#8 ++ crc.extractLsb' 8 8 :=
    BitVec.setWidth_eq_append (by decide)
  rw [extended, ← tableStep_append, append_bytes]

/-- The register's own low byte selects entry 0, which is 0 (R120). -/
theorem tableStep_low_byte (crc : Crc) : tableStep crc (crc.extractLsb' 0 8) = (crc.extractLsb' 8 8).setWidth 16 := by
  have entry : tableEntry 0x00#8 = 0x0000#16 := rfl
  rw [tableStep_eq_bytes, BitVec.xor_self, entry, BitVec.xor_zero]

/-- From `crc` 0 the step reads the table (R120). -/
theorem tableStep_zero (i : Byte) : tableStep 0x0000#16 i = tableEntry i := by
  have step : tableStep 0x0000#16 i = 0x0000#16 ^^^ tableEntry (0x00#8 ^^^ i) := tableStep_eq_bytes _ i
  rw [step, BitVec.zero_xor, BitVec.zero_xor]

/-- Settles O11: BYTET loads one table step, which is a shift and one entry of the register's two bytes. -/
theorem bytetIsOneTableUpdate : Obligations.BytetIsOneTableUpdate := by
  refine ⟨byteEncoding_of_decode (decode_commandWord _), fun s b8 => ?_, tableStep_eq_masked, tableStep_low_byte,
    tableStep_zero, rfl, rfl, rfl⟩
  rw [← tableStep_eq_bytes]
  rfl

/-- The two paths agree on every byte sequence (R122). -/
theorem crc16Table_eq_crc16Bitwise (bs : List Byte) (init : Crc) : crc16Table bs init = crc16Bitwise bs init := by
  have paths : tableStep = bytewiseStep := funext₂ fun c b => (bytewiseStep_eq_tableStep c b).symm
  rw [crc16Table, crc16Bitwise, paths]

/-- Settles O24: a byte's two steps are equal, so the folds over a sequence are, and each sequence of commands
leaves its fold. -/
theorem pathsAgree : Obligations.PathsAgree := by
  refine ⟨fun c b => (bytewiseStep_eq_tableStep c b).symm,
    fun bs s => ⟨_, _, execAll_next _ s, execAll_next _ s, ?_⟩⟩
  rw [afterAll_bytet, afterAll_byteb, loadCrc_crc, loadCrc_crc, crc16Table_eq_crc16Bitwise]

/-- INIT and the BYTET of a sequence leave INIT's state with the sequence's CRC in it (R123, R141). -/
theorem execAll_init_bytet (s : State) (init : Crc) (bs : List Byte) :
    execAll (.init init :: bs.map .bytet) s = .next (loadCrc (crc16Table bs init) (after (.init init) s)) := by
  rw [execAll_next, afterAll_cons, afterAll_bytet]
  rfl

/-- INIT clears every field that STATUS shows (R141), and loading `crc` keeps them. -/
theorem memRead_status_loadCrc_init (v init : Crc) (s : State) :
    memRead 0x008#12 4 (loadCrc v (after (.init init) s)) = .ok 0x00000000#32 := by
  have status : statusWord (loadCrc v (after (.init init) s)) = statusWord State.reset := rfl
  have read := memRead_offset .status (loadCrc v (after (.init init) s))
  rwa [readReg, status] at read

/-- Settles O25: CRC and RESULT read the loaded value, and the rest is as INIT left it. -/
theorem bytetSequenceComputesTheCrc : Obligations.BytetSequenceComputesTheCrc :=
  ⟨fun _ => rfl, fun bs x init => crc16Table_append bs [x] init,
    fun s init bs => ⟨_, execAll_init_bytet s init bs, memRead_offset .crc _, memRead_offset .result _,
      memRead_status_loadCrc_init _ init s, rfl, rfl⟩⟩

/-- Each command of the two CRC paths loads a function of `crc` that its operand alone determines (R125, R130, R132). -/
theorem exec_loads_function_of_crc {i : Instr} {b : Byte} {d : BitVec 1}
    (hi : i = .bytet b ∨ i = .byteb b ∨ i = .bitb d) :
    ∃ f : Crc → Crc, ∀ s, exec i s = .next (loadCrc (f s.crc) s) := by
  obtain rfl | rfl | rfl := hi
  · exact ⟨fun crc => tableStep crc b, fun _ => rfl⟩
  · exact ⟨fun crc => bytewiseStep crc b, fun _ => rfl⟩
  · exact ⟨fun crc => bitStep crc (d.getLsbD 0), fun _ => rfl⟩

/-- Settles O55: equal `crc` have equal images under the command's function. -/
theorem crcCommandsDependOnCrcAlone : Obligations.CrcCommandsDependOnCrcAlone := by
  intro s u i b d same hi
  obtain ⟨f, hf⟩ := exec_loads_function_of_crc hi
  exact ⟨_, _, hf s, hf u, congrArg f same⟩

end Sys2Proof.Machine
end

section
/-! PROOFS. The bitwise path (R130 to R135): BITB, BYTEB, and how a byte's bits and a sequence's bytes run on it. -/

namespace Sys2Proof.Machine

open Sys2Proof.Spec

/-- The words of OP 0x04 with zeros above the operand bit are BITB; the others are illegal (R85). -/
theorem bitbEncoding :
    (∀ d : BitVec 1, decode (0x04#8 ++ 0x00#8 ++ 0#15 ++ d) = .ok (.bitb d)) ∧
      ∀ w : Word, w.extractLsb' 24 8 = 0x04#8 → w.extractLsb' 1 23 ≠ 0#23 → ∃ e, decode w = .error e := by
  refine ⟨fun d => ?_, fun w opcode upper => decode_error_of_opcode opcode fun imm word => ?_⟩
  · have word : 0x04#8 ++ 0x00#8 ++ 0#15 ++ d = commandWord 0x04#8 (0#15 ++ d) := BitVec.append_assoc
    rw [word]
    exact decode_encode (.bitb d)
  · have mustBeZero : imm.extractLsb' 1 15 ≠ 0#15 := by
      intro zero
      have split (d : BitVec 1) : commandWord 0x04#8 (0#15 ++ d) = 0x02000000#31 ++ d := bitbWord_split d
      rw [word, ← imm_of_bit zero, split, BitVec.extractLsb'_append_eq_of_le (by decide)] at upper
      exact upper rfl
    have answers := decodeBit_answers (decode_commandWord 0x04#8 imm)
    rwa [if_neg mustBeZero] at answers

/-- The feedback condition as Boolean and as the one-bit field of R130. -/
theorem xor_lsb_iff (d : BitVec 1) (crc : Crc) :
    d ^^^ crc.extractLsb' 0 1 = 1#1 ↔ (d.getLsbD 0 ^^ crc.getLsbD 0) = true := by
  have bit : ∀ x : BitVec 1, x = 1#1 ↔ x.getLsbD 0 = true := by decide
  rw [bit, BitVec.getLsbD_xor, BitVec.getLsbD_extractLsb']
  rfl

/-- BITB on `crc`, in R130's own form. -/
theorem exec_bitb_eq_bit_step (s : State) (d : BitVec 1) :
    exec (.bitb d) s = .next { s with
      crc := if d ^^^ s.crc.extractLsb' 0 1 = 1#1 then (s.crc >>> 1) ^^^ 0x8408#16 else s.crc >>> 1 } := by
  simp only [xor_lsb_iff]
  rfl

/-- The shift leaves bit 15 clear, so it is the polynomial's, 1, exactly when the XOR is taken (R130). -/
theorem bitStep_getLsbD_15 (crc : Crc) (d : Bool) : (bitStep crc d).getLsbD 15 = (d ^^ crc.getLsbD 0) := by
  have shifted : (crc >>> 1).getLsbD 15 = false := by
    rw [BitVec.getLsbD_ushiftRight, BitVec.getLsbD_of_ge _ _ (by decide)]
  have poly : Config.crc16Poly.getLsbD 15 = true := rfl
  unfold bitStep
  cases d ^^ crc.getLsbD 0 with
  | false => exact shifted
  | true =>
    rw [if_pos rfl, BitVec.getLsbD_xor, shifted, poly, Bool.false_xor]

/-- Settles O12: BITB loads one bit step, whose condition is bit 15 of its result. -/
theorem bitbIsOneBitStep : Obligations.BitbIsOneBitStep :=
  ⟨bitbEncoding, exec_bitb_eq_bit_step, bitStep_getLsbD_15, rfl, rfl, rfl, rfl, rfl, rfl⟩

/-- Settles O13: BYTEB loads the eight steps, which are the table's entry from `crc` 0 and the table step
from every `crc`. -/
theorem bytebIsEightBitSteps : Obligations.BytebIsEightBitSteps := by
  refine ⟨byteEncoding_of_decode (decode_commandWord _), fun s b8 => ?_, bytewiseStep_eq_eightSteps,
    fun i => (tableEntry_eq_bytewiseStep i).symm, bytewiseStep_eq_tableStep, rfl, rfl, rfl, rfl⟩
  rw [← bytewiseStep_eq_eightSteps]
  rfl

theorem crc16Bitwise_append (bs cs : List Byte) (init : Crc) :
    crc16Bitwise (bs ++ cs) init = crc16Bitwise cs (crc16Bitwise bs init) :=
  List.foldl_append

/-- Settles O26: both functions fold equal steps, and the commands leave the fold from INIT's value. -/
theorem bytebSequenceComputesTheCrc : Obligations.BytebSequenceComputesTheCrc := by
  refine ⟨fun _ => rfl, fun bs x init => crc16Bitwise_append bs [x] init,
    fun bs init => (crc16Table_eq_crc16Bitwise bs init).symm, fun s init bs => ⟨_, execAll_next _ s, ?_⟩⟩
  rw [afterAll_cons, afterAll_byteb]
  rfl

/-- BITB commands fold the bit step over their bits and change nothing else (R130). -/
theorem afterAll_bitb (ds : List (BitVec 1)) (s : State) :
    afterAll (ds.map .bitb) s = loadCrc (ds.foldl (fun crc d => bitStep crc (d.getLsbD 0)) s.crc) s := by
  induction ds generalizing s with
  | nil => rfl
  | cons d ds ih => rw [List.map_cons, afterAll_cons, ih]; rfl

/-- `BITS b, 8` presents the bits of R131's steps in their order (R91). -/
theorem foldl_bitsOf_byte (b : Byte) (crc : Crc) :
    (bitsOf b.toNat 8).foldl (fun c d => bitStep c (d.getLsbD 0)) crc = eightSteps crc b := by
  have bit (k : Nat) : (BitVec.ofBool (b.toNat.testBit k)).getLsbD 0 = b.getLsbD k := by
    simp [BitVec.testBit_toNat]
  simp only [bitsOf, List.foldl_map, bit, eightSteps]

/-- The eight BITB of a byte leave the state of its BYTEB (R133). -/
theorem afterAll_bitb_byte (b : Byte) (s : State) :
    afterAll ((bitsOf b.toNat 8).map .bitb) s = after (.byteb b) s := by
  rw [afterAll_bitb, foldl_bitsOf_byte, ← bytewiseStep_eq_eightSteps]
  rfl

/-- Settles O27: the eight BITB fold the bit steps of BYTEB. -/
theorem bytebIsEightBitb : Obligations.BytebIsEightBitb := by
  intro s b
  rw [exec_next, ← afterAll_bitb_byte]
  exact execAll_next _ s

/-- The bits of a sequence in wire order leave the state of its BYTEB commands, byte by byte (R135). -/
theorem afterAll_wireBits (bs : List Byte) (s : State) :
    afterAll ((wireBits bs).map .bitb) s = afterAll (bs.map .byteb) s := by
  induction bs generalizing s with
  | nil => rfl
  | cons b bs ih =>
    calc afterAll ((wireBits (b :: bs)).map .bitb) s
      _ = afterAll ((wireBits bs).map .bitb) (afterAll ((bitsOf b.toNat 8).map .bitb) s) := by
        rw [← afterAll_append, ← List.map_append, wireBits, List.flatMap_cons, ← wireBits]
      _ = afterAll ((b :: bs).map .byteb) s := by rw [ih, afterAll_bitb_byte, List.map_cons, afterAll_cons]

/-- Whole sequences of BYTET and BYTEB leave the same state (R122). -/
theorem afterAll_bytet_eq_byteb (bs : List Byte) (s : State) :
    afterAll (bs.map .bytet) s = afterAll (bs.map .byteb) s := by
  rw [afterAll_bytet, afterAll_byteb, crc16Table_eq_crc16Bitwise]

/-- Settles O28: the bits run as BYTEB by bytes, and BYTET as BYTEB. -/
theorem wireBitsGiveTheByteResult : Obligations.WireBitsGiveTheByteResult := by
  intro s bs
  simp only [execAll_next, afterAll_wireBits, afterAll_bytet_eq_byteb, and_self]

end Sys2Proof.Machine
end

section
/-! PROOFS. The control commands (R140 to R142): NOP, INIT, CHECK. -/

namespace Sys2Proof.Machine

open Sys2Proof.Spec

/-- Settles O9: a write to CMD answers `ok` and runs its word, here NOP's. -/
theorem nopChangesNothing : Obligations.NopChangesNothing :=
  ⟨noneEncoding_of_decode (decode_commandWord _), fun s =>
    ⟨rfl, executeWord_of_decode_ok (decode_encode .nop) (respond (some .ok) s)⟩⟩

theorem halfwordEncoding_of_decode {op : BitVec 8} {mk : BitVec 16 → Instr}
    (h : ∀ imm, decode (commandWord op imm) = .ok (mk imm)) : halfwordEncoding op mk :=
  ⟨h, fun _ _ rsv => ⟨_, decode_reserved rsv⟩⟩

/-- Settles O10: STATUS is already zero in the state INIT leaves, and CRC and RESULT show the loaded value. -/
theorem initStartsAComputation : Obligations.InitStartsAComputation :=
  ⟨halfwordEncoding_of_decode (decode_commandWord _), fun s v16 =>
    ⟨_, exec_next (.init v16) s, rfl, memRead_offset .crc _, memRead_offset .result _,
      memRead_status_loadCrc_init v16 v16 s⟩⟩

/-- CHECK writes MATCH with the comparison of R142 and nothing else. -/
theorem exec_check (s : State) (v16 : BitVec 16) :
    exec (.check v16) s = .next (writeMatch (decide (~~~s.crc = v16)) s) := by
  rw [exec, execCheck, checksumMatches, finalChecksum, beq_eq_decide]

/-- A later CHECK overwrites MATCH: it compares a `crc` the earlier one kept (R142). -/
theorem execAll_check_check (s : State) (v w : BitVec 16) :
    execAll [.check v, .check w] s = exec (.check w) s := by
  rw [execAll_next, exec_next]
  rfl

/-- Settles O19: CHECK's comparison in every state, and at the rule's example `crc`. -/
theorem checkComparesTheComplement : Obligations.CheckComparesTheComplement := by
  refine ⟨halfwordEncoding_of_decode (decode_commandWord _), exec_check, execAll_check_check,
    fun s b i byteCommand => ?keepsMatch, rfl, fun s crc => ?ruleExample⟩
  case keepsMatch =>
    obtain rfl | rfl := byteCommand <;> exact ⟨_, rfl, rfl⟩
  case ruleExample =>
    have compared (v16 : BitVec 16) :
        exec (.check v16) s = .next (writeMatch (decide (~~~0x6F91#16 = v16)) s) := by rw [exec_check, crc]
    exact ⟨compared 0x906E#16, compared 0x6E90#16⟩

end Sys2Proof.Machine
end

section
/-! PROOFS. The sticky error bits (R23): what raises each (R162 to R164), what clears them (R168), and that one access
raises at most one condition (R166). -/

namespace Sys2Proof.Machine

open Sys2Proof.Spec

/-! ### Illegal words are the words the decoder refuses -/

/-- A word of a known OP with RSV 0 and its must-be-zero bits 0 is the word of that OP's command (R85). -/
theorem exists_encode_eq_commandWord {op : BitVec 8} {imm : BitVec 16} (known : op < 0x0A#8)
    (zero : imm &&& immMustBeZero op = 0x0000#16) : ∃ i, encode i = commandWord op imm := by
  have byteOperand (masked : imm &&& 0xFF00#16 = 0x0000#16) : 0x00#8 ++ imm.extractLsb' 0 8 = imm :=
    (eq_append_of_masked (hi := 8) (lo := 8) (m := 0x00#8) masked).symm
  have bitOperand (masked : imm &&& 0xFFFE#16 = 0x0000#16) : 0#15 ++ imm.extractLsb' 0 1 = imm :=
    (eq_append_of_masked (hi := 15) (lo := 1) (m := 0#15) masked).symm
  have noOperand (masked : imm &&& 0xFFFF#16 = 0x0000#16) : 0x0000#16 = imm :=
    masked.symm.trans BitVec.and_allOnes
  obtain rfl | rfl | rfl | rfl | rfl | rfl | rfl | rfl | rfl | rfl : op = 0x00#8 ∨ op = 0x01#8 ∨ op = 0x02#8 ∨
      op = 0x03#8 ∨ op = 0x04#8 ∨ op = 0x05#8 ∨ op = 0x06#8 ∨ op = 0x07#8 ∨ op = 0x08#8 ∨ op = 0x09#8 := by bv_omega
  · exact ⟨.nop, congrArg (commandWord 0x00#8) (noOperand zero)⟩
  · exact ⟨.init imm, rfl⟩
  · exact ⟨.bytet _, congrArg (commandWord 0x02#8) (byteOperand zero)⟩
  · exact ⟨.byteb _, congrArg (commandWord 0x03#8) (byteOperand zero)⟩
  · exact ⟨.bitb _, congrArg (commandWord 0x04#8) (bitOperand zero)⟩
  · exact ⟨.hext _, congrArg (commandWord 0x05#8) (byteOperand zero)⟩
  · exact ⟨.hexb _, congrArg (commandWord 0x06#8) (byteOperand zero)⟩
  · exact ⟨.hexn _, congrArg (commandWord 0x07#8) (byteOperand zero)⟩
  · exact ⟨.flush, congrArg (commandWord 0x08#8) (noOperand zero)⟩
  · exact ⟨.check imm, rfl⟩

/-- R88's three grounds are exactly what the decoder refuses. -/
theorem illegalWord_iff_decode_error (w : Word) : illegalWord w ↔ ∃ e, decode w = .error e := by
  refine ⟨decode_error_of_illegalWord, fun ⟨e, refused⟩ => by_contra fun legal => ?_⟩
  simp only [illegalWord, not_or, not_not] at legal
  obtain ⟨known, rsv, zero⟩ := legal
  obtain ⟨i, word⟩ := exists_encode_eq_commandWord (BitVec.not_le.1 known) zero
  have command : encode i = w := word.trans (commandWord_of_fields rsv)
  rw [← command, decode_encode] at refused
  contradiction

theorem not_illegalWord_of_decode_ok {w : Word} {i : Instr} (h : decode w = .ok i) : ¬ illegalWord w :=
  encode_of_decode h ▸ not_illegalWord_encode i

/-! ### What a command raises -/

theorem not_rises_self (b : Bool) : ¬ rises b b := by simp [rises]

theorem not_rises_false (b : Bool) : ¬ rises b false := by simp [rises]

theorem rises_iff_of_or {before after : Bool} {cause : Prop} (h : after = true ↔ before = true ∨ cause) :
    rises before after ↔ before = false ∧ cause := by
  rw [rises, h]
  exact and_congr_right fun clear => by simp [clear]

/-- A command raises InvalidHexDigit exactly when it is a hex command on a non-hex character in strict mode (R162). -/
theorem rises_errHex_after (i : Instr) (s : State) : rises s.errHex (after i s).errHex ↔
    s.errHex = false ∧ s.strict = true ∧ ∃ c, isHex c = false ∧ (i = .hext c ∨ i = .hexb c ∨ i = .hexn c) := by
  obtain ⟨init, other⟩ := after_errors i s
  by_cases isInit : ∃ v, i = .init v
  · obtain ⟨hex, _, _⟩ := init isInit
    obtain ⟨v, rfl⟩ := isInit
    simp [hex, not_rises_false]
  · obtain ⟨_, hex, _⟩ := other (not_exists.1 isInit)
    exact rises_iff_of_or hex

/-- A command raises OddLengthInput exactly when it is FLUSH with a character pending in strict mode (R163). -/
theorem rises_errOdd_after (i : Instr) (s : State) : rises s.errOdd (after i s).errOdd ↔
    s.errOdd = false ∧ s.strict = true ∧ s.half = true ∧ i = .flush := by
  obtain ⟨init, other⟩ := after_errors i s
  by_cases isInit : ∃ v, i = .init v
  · obtain ⟨_, odd, _⟩ := init isInit
    obtain ⟨v, rfl⟩ := isInit
    simp [odd, not_rises_false]
  · obtain ⟨_, _, odd⟩ := other (not_exists.1 isInit)
    exact rises_iff_of_or odd

/-- No command raises IllegalCommand (R161). -/
theorem not_rises_errCmd_after (i : Instr) (s : State) : ¬ rises s.errCmd (after i s).errCmd := by
  obtain ⟨init, other⟩ := after_errors i s
  by_cases isInit : ∃ v, i = .init v
  · obtain ⟨_, _, cmd⟩ := init isInit
    rw [cmd]
    exact not_rises_false _
  · obtain ⟨cmd, _, _⟩ := other (not_exists.1 isInit)
    rw [cmd]
    exact not_rises_self _

/-- No command raises both hex conditions: one is of the hex commands, the other of FLUSH. -/
theorem not_rises_errHex_and_errOdd_after (i : Instr) (s : State) :
    ¬ (rises s.errHex (after i s).errHex ∧ rises s.errOdd (after i s).errOdd) := by
  rw [rises_errHex_after, rises_errOdd_after]
  rintro ⟨⟨_, _, c, _, hex⟩, _, _, _, rfl⟩
  simp at hex

/-! ### One access -/

/-- Everything one access can do: answer and change nothing else, write STRICT, run a command, or raise
IllegalCommand. -/
theorem serveAccess_cases (a : Access) (s : State) :
    (∃ r, serveAccess a s = .next (respond (some r) s)) ∨
    (∃ b, serveAccess a s = .next (writeStrict b (respond (some .ok) s))) ∨
    (∃ w i, a = .write 0x000#12 4 w ∧ decode w = .ok i ∧
      serveAccess a s = .next (after i (respond (some .ok) s))) ∨
    (∃ w e, a = .write 0x000#12 4 w ∧ decode w = .error e ∧
      serveAccess a s = .next (raise .illegalCommand (respond (some .ok) s))) := by
  cases a with
  | read off n =>
    obtain ⟨_, _, h⟩ | ⟨_, h⟩ := serveAccess_read off n s <;> exact .inl ⟨_, h⟩
  | write off n v =>
    obtain ⟨_, rfl, rfl, h⟩ | ⟨_, _, _, h⟩ | ⟨_, _, h⟩ := serveAccess_write off n v s
    · obtain ⟨i, legal, run⟩ | ⟨e, illegal, run⟩ := executeWord_cases v (respond (some .ok) s)
      · exact .inr (.inr (.inl ⟨v, i, rfl, legal, h.trans run⟩))
      · exact .inr (.inr (.inr ⟨v, e, rfl, illegal, h.trans run⟩))
    · exact .inr (.inl ⟨_, h⟩)
    · exact .inl ⟨_, h⟩

/-- Settles O35: a read, a CTRL write and a rejected access write no error bit, an illegal word sets one, and of the
commands INIT alone clears any. -/
theorem onlyInitClearsErrors : Obligations.OnlyInitClearsErrors := by
  refine ⟨fun a s t ht notInit => ?stays, fun s v => ⟨_, rfl, rfl, rfl, rfl⟩, fun s c => by cases c <;> rfl⟩
  obtain ⟨r, h⟩ | ⟨b, h⟩ | ⟨w, i, ha, legal, h⟩ | ⟨w, e, _, _, h⟩ := serveAccess_cases a s
  all_goals
    rw [h] at ht
    cases ht
  · exact ⟨id, id, id⟩
  · exact ⟨id, id, id⟩
  · have other : ∀ v, i ≠ .init v := fun v hi => notInit w v ha (hi ▸ legal)
    obtain ⟨_, kept⟩ := after_errors i (respond (some .ok) s)
    obtain ⟨cmd, hex, odd⟩ := kept other
    exact ⟨fun was => hex.2 (.inl was), fun was => odd.2 (.inl was), fun was => cmd.trans was⟩
  · exact ⟨id, id, fun _ => rfl⟩

/-- Settles O37: the error response comes with no change, a command raises no IllegalCommand and at most one of the
hex conditions, and an illegal word raises IllegalCommand alone. -/
theorem oneConditionPerStep : Obligations.OneConditionPerStep := by
  intro a s t ht
  obtain ⟨r, h⟩ | ⟨b, h⟩ | ⟨w, i, _, _, h⟩ | ⟨w, e, _, _, h⟩ := serveAccess_cases a s
  all_goals
    rw [h] at ht
    cases ht
  · exact ⟨fun busError => congrArg (respond · s) busError, fun ⟨cmd, _⟩ => not_rises_self _ cmd,
      fun ⟨hex, _⟩ => not_rises_self _ hex⟩
  · exact ⟨fun busError => by simp at busError, fun ⟨cmd, _⟩ => not_rises_self _ cmd,
      fun ⟨hex, _⟩ => not_rises_self _ hex⟩
  · obtain ⟨_, _, answer, _⟩ := after_keeps i (respond (some .ok) s)
    exact ⟨fun busError => by simp [answer] at busError,
      fun ⟨cmd, _⟩ => not_rises_errCmd_after i (respond (some .ok) s) cmd,
      not_rises_errHex_and_errOdd_after i (respond (some .ok) s)⟩
  · exact ⟨fun busError => by simp at busError,
      fun ⟨_, hexOrOdd⟩ => hexOrOdd.elim (not_rises_self _) (not_rises_self _),
      fun ⟨hex, _⟩ => not_rises_self _ hex⟩

/-! ### One step -/

/-- The hex conditions come from the command a step runs: without one neither bit rises. -/
theorem step_hex_conditions {s t : State} (ht : step s = .next t) :
    (s.nextCommand = none ∧ ¬ rises s.errHex t.errHex ∧ ¬ rises s.errOdd t.errOdd) ∨
    ∃ i, s.nextCommand = some i ∧ t.errHex = (after i s).errHex ∧ t.errOdd = (after i s).errOdd := by
  obtain ⟨_, noCommand, h⟩ | ⟨_, noCommand, h⟩ | ⟨_, noCommand, ⟨_, _, h⟩, _⟩ | ⟨_, noCommand, ⟨_, _, h⟩, _⟩ |
    ⟨_, i, _, _, _, _, _, command, h⟩ | ⟨_, _, _, _, _, _, _, noCommand, h⟩ := step_cases s
  all_goals
    rw [h] at ht
    cases ht
  · exact .inl ⟨noCommand, not_rises_self _, not_rises_self _⟩
  · exact .inl ⟨noCommand, not_rises_false _, not_rises_false _⟩
  · exact .inl ⟨noCommand, not_rises_self _, not_rises_self _⟩
  · exact .inl ⟨noCommand, not_rises_self _, not_rises_self _⟩
  · exact .inr ⟨i, command, rfl, rfl⟩
  · exact .inl ⟨noCommand, not_rises_self _, not_rises_self _⟩

theorem step_rises_errHex {s t : State} (ht : step s = .next t) : rises s.errHex t.errHex ↔
    s.errHex = false ∧ s.strict = true ∧ ∃ c, isHex c = false ∧
      (s.nextCommand = some (.hext c) ∨ s.nextCommand = some (.hexb c) ∨ s.nextCommand = some (.hexn c)) := by
  obtain ⟨noCommand, hex, _⟩ | ⟨i, command, hex, _⟩ := step_hex_conditions ht
  · simp [noCommand, hex]
  · simpa only [command, hex, Option.some.injEq] using rises_errHex_after i s

theorem step_rises_errOdd {s t : State} (ht : step s = .next t) : rises s.errOdd t.errOdd ↔
    s.errOdd = false ∧ s.strict = true ∧ s.half = true ∧ s.nextCommand = some .flush := by
  obtain ⟨noCommand, _, odd⟩ | ⟨i, command, _, odd⟩ := step_hex_conditions ht
  · simp [noCommand, odd]
  · simpa only [command, odd, Option.some.injEq] using rises_errOdd_after i s

/-- IllegalCommand comes from an accepted write of an illegal word to CMD alone (R161, R164). -/
theorem step_rises_errCmd {s t : State} (ht : step s = .next t) : rises s.errCmd t.errCmd ↔
    s.errCmd = false ∧ s.resetPin = false ∧ ∃ w rest,
      s.port = .access (.write 0x000#12 4 w) :: rest ∧ illegalWord w := by
  obtain ⟨empty, _, h⟩ | ⟨isReset, _, h⟩ | ⟨_, _, ⟨_, _, h⟩, other⟩ | ⟨_, _, ⟨_, _, h⟩, other⟩ |
    ⟨w, i, rest, _, _, tape, legal, _, h⟩ | ⟨w, e, rest, _, released, tape, refused, _, h⟩ := step_cases s
  all_goals
    rw [h] at ht
    cases ht
  · exact iff_of_false (not_rises_self _) (by simp [empty])
  · refine iff_of_false (not_rises_false _) ?_
    rintro ⟨_, _, w, rest, tape, _⟩
    simp [State.nextIsReset, tape] at isReset
  · exact iff_of_false (not_rises_self _) fun ⟨_, released, w, rest, tape, _⟩ => other w rest released tape
  · exact iff_of_false (not_rises_self _) fun ⟨_, _, w, rest, tape, _⟩ => other w rest tape
  · refine iff_of_false (not_rises_errCmd_after i s) ?_
    rintro ⟨_, _, w', rest', tape', illegal⟩
    simp only [tape, List.cons.injEq, Input.access.injEq, Access.write.injEq, true_and] at tape'
    exact not_illegalWord_of_decode_ok legal (tape'.1 ▸ illegal)
  · exact and_congr_right fun _ => iff_of_true rfl
      ⟨released, w, rest, tape, (illegalWord_iff_decode_error w).2 ⟨e, refused⟩⟩

/-- Settles O36: the hex conditions are the next command's own, IllegalCommand the next word's. -/
theorem errorBitsRiseForTheirCause : Obligations.ErrorBitsRiseForTheirCause := by
  intro s
  obtain ⟨t, ht⟩ := step_next s
  exact ⟨t, ht, step_rises_errHex ht, step_rises_errOdd ht, step_rises_errCmd ht⟩

end Sys2Proof.Machine
end
